-- ==== Sys2Proof/Word.lean ====
section
/-! DEFINITION. The datum of the LS-8 core: one unsigned byte (00_scope.md R6, R9). -/

namespace Sys2Proof

/-- Every register, memory cell, address, opcode and operand is an unsigned 8-bit value (00_scope.md R9). Bit 0 is the
least significant bit (00_scope.md R8; log 17). -/
abbrev Byte := BitVec 8

end Sys2Proof
end

