-- ==== Sys2Proof/Config.lean ====
section
/-! DEFINITION. The parameters the spec leaves open (00_scope.md R7), with the spec's reference values where it names
one, and free constants where it names none. -/

namespace Sys2Proof

/-- `ADDRESS_WRAP_POLICY` (00_scope.md R7, 20_memory.md R53): what address arithmetic past 0..255 does. -/
inductive WrapPolicy where
  /-- Addresses are taken modulo 256: the reference value. -/
  | wrap
  /-- Leaving 0..255 stops the core with GUEST_UB(AddressOutOfRange). -/
  | fault
deriving DecidableEq, Repr

/-- The parameters that power-on takes (00_scope.md R7, 10_state.md R37). `resetGpr` has a value for each of R0..R6 and
`resetMemFill` one for each cell (92_eei_decisions.md D7). -/
structure Config where
  resetPc : Byte
  resetGpr : Vector Byte 7
  resetFl : Byte
  resetMemFill : Vector Byte 256
  addressWrapPolicy : WrapPolicy
deriving DecidableEq, Repr

/-- The spec's reference values (00_scope.md R7). DESIGN CHOICE (log 1 to 5): the hardware's source gives none, and
State.reset takes these. -/
def Config.reference : Config where
  resetPc := 0x00#8
  resetGpr := Vector.replicate 7 0x00#8
  resetFl := 0x00#8
  resetMemFill := Vector.replicate 256 0x00#8
  addressWrapPolicy := .wrap

/-- Free choices behind the exit codes, which the spec leaves open (00_scope.md R7, 60_exceptions.md R186; log 13).
No body: nothing can be proved of its values. -/
opaque Config.freeExitChoice : Nat → Nat

/-- `EXIT_OK`: the status of HLT (00_scope.md R6). -/
def Config.exitOk : Nat := 0

/-- `EXIT_DECODE_ERROR`: any number but 0 (00_scope.md R7). -/
def Config.exitDecodeError : Nat := Config.freeExitChoice 0 + 1

/-- `EXIT_FILE_NOT_FOUND`: any number but 0 and `EXIT_DECODE_ERROR` (00_scope.md R7). Every such number is some free
choice's value. -/
def Config.exitFileNotFound : Nat :=
  let n := Config.freeExitChoice 1 + 1
  if n < Config.exitDecodeError then n else n + 1

/-- The status of a GUEST_UB stop: any number but 0 (60_exceptions.md R186). -/
def Config.exitGuestUB : Nat := Config.freeExitChoice 2 + 1

end Sys2Proof
end

