-- ==== Sys2Proof/Machine/State.lean ====
section
/-! DEFINITION. The state of the LS-8 core as plain data (10_state.md), the reasons a step can stop outside it, and the
state after reset. -/

namespace Sys2Proof.Machine

/-- The misuses the core stops on (60_exceptions.md R183). -/
inductive GuestUB where
  /-- A rule reads or writes x[i] with i >= 8 (10_state.md R24). -/
  | badRegisterIndex
  /-- `wrapadd` leaves 0..255 under the `fault` policy (20_memory.md R53). -/
  | addressOutOfRange
deriving DecidableEq, Repr

/-- The run state, a sticky status register (10_state.md R30). -/
inductive RunState where
  | running
  | haltedOk
  /-- The opcode byte `op` at address `addr` matched no handler. -/
  | decodeError (op addr : Byte)
  | guestUB (kind : GuestUB)
deriving DecidableEq, Repr

/-- Memory as (address, byte) pairs, addresses rising, listing only what differs from an unlisted cell
(`Memory.wf` in Machine/Ops.lean). -/
abbrev Memory := List Host.Cell

/-- The architectural state (10_state.md, the State block and R20 to R36). -/
structure State where
  /-- R0..R7; x[7] is SP (10_state.md R20, R22). -/
  x : Vector Byte 8
  /-- 10_state.md R27. -/
  pc : Byte
  /-- FL (10_state.md R28). -/
  fl : Byte
  /-- The 256 cells (10_state.md R36, 20_memory.md R50). -/
  mem : Memory
  /-- 10_state.md R30. -/
  run : RunState
  /-- The console output port, oldest byte first (10_state.md R33). -/
  out : List Byte
  /-- The parameter ADDRESS_WRAP_POLICY: the model's own field, which no step changes (20_memory.md R53; log 1). -/
  wrapPolicy : WrapPolicy
deriving DecidableEq, Repr

/-- No step of this core ends in a fault: every event the spec names is a stop recorded in `run`, a next state
(60_exceptions.md R180, 10_state.md R30; log 9, safe). So no one raises a Fault and the type has no constructor. -/
inductive Fault where
deriving DecidableEq, Repr

/-- Why the model gives no meaning. -/
inductive Refusal where
  /-- Raised by an arm of Dispatch whose instruction has no meaning yet; no arm is left in that state. Safe. -/
  | notModelled (mnemonic : String)
  /-- Raised by `State.loadImage` for an image of more than 256 bytes, to which the spec gives no meaning (20_memory.md
  R59, 93_implementation_defined.md U12). No step raises it. Safe (log 14). -/
  | imageTooLong (length : Nat)
deriving DecidableEq, Repr

/-- What a step, a handler or a load answers. -/
abbrev Result := Host.Outcome State Fault Refusal

/-- Power-on (10_state.md R37): R7 = 0xF4 and run RUNNING and out empty are the spec's; pc, R0..R6, FL, the memory fill
and the wrap policy are the spec's reference values of open parameters, DESIGN CHOICE (log 1 to 5, unsafe). -/
def State.reset : State where
  x := #v[0x00#8, 0x00#8, 0x00#8, 0x00#8, 0x00#8, 0x00#8, 0x00#8, 0xF4#8]
  pc := 0x00#8
  fl := 0x00#8
  mem := []
  run := .running
  out := []
  wrapPolicy := .wrap

end Sys2Proof.Machine
end

