-- ==== Sys2Proof/Machine/Flags.lean ====
section
/-! DEFINITION. The flag register's fields (10_state.md R28), the comparison that sets them (41_alu.md R125) and the
arithmetic of the ALU (41_alu.md R127). -/

namespace Sys2Proof.Machine

/-- E, bit 0: the last CMP found its operands equal (10_state.md R28). -/
def flagE (fl : Byte) : Bool := fl.getLsbD 0

/-- G, bit 1: the last CMP found its first operand greater (10_state.md R28). -/
def flagG (fl : Byte) : Bool := fl.getLsbD 1

/-- L, bit 2: the last CMP found its first operand less (10_state.md R28). -/
def flagL (fl : Byte) : Bool := fl.getLsbD 2

/-- The byte CMP writes to FL, all of it, from an unsigned comparison (41_alu.md R125). -/
def compareFlags (va vb : Byte) : Byte :=
  if va = vb then 0b00000001#8
  else if vb.toNat < va.toNat then 0b00000010#8
  else 0b00000100#8

/-- The low 8 bits of an exact result; nothing else is recorded (00_scope.md R10, 41_alu.md R127). -/
def narrow (n : Nat) : Byte := BitVec.ofNat 8 n

/-- Addition, exact and then reduced (41_alu.md R120). -/
def aluAdd (va vb : Byte) : Byte := narrow (va.toNat + vb.toNat)

/-- Multiplication, exact and then reduced (41_alu.md R121). -/
def aluMul (va vb : Byte) : Byte := narrow (va.toNat * vb.toNat)

/-- Bitwise AND (41_alu.md R122). -/
def aluAnd (va vb : Byte) : Byte := va &&& vb

/-- Bitwise inclusive OR (41_alu.md R123). -/
def aluOr (va vb : Byte) : Byte := va ||| vb

/-- Bitwise exclusive OR (41_alu.md R124). -/
def aluXor (va vb : Byte) : Byte := va ^^^ vb

end Sys2Proof.Machine
end

