-- ==== Sys2Proof/Syntax.lean ====
section
/-! DEFINITION. The 17 instructions of spec/opcode_table.json with their operand bytes, and the three fetched bytes an
instruction is decoded from. -/

namespace Sys2Proof

/-- An instruction. A register operand is the whole operand byte (10_state.md R24, 30_encoding.md R73): it names a
register only when it is 0..7, and a byte of 8 or more is decoded and found out by the rule that uses it. Operand bytes
that a format does not have are no part of the instruction (R73). The operand roles are those of 30_encoding.md R74. -/
inductive Instr where
  /-- 41_alu.md R120. -/
  | add (a b : Byte)
  /-- 41_alu.md R121. -/
  | mul (a b : Byte)
  /-- 41_alu.md R122. -/
  | and (a b : Byte)
  /-- 41_alu.md R123. -/
  | or (a b : Byte)
  /-- 41_alu.md R124. -/
  | xor (a b : Byte)
  /-- 41_alu.md R125. -/
  | cmp (a b : Byte)
  /-- 42_control.md R140. -/
  | jmp (a : Byte)
  /-- 42_control.md R141. -/
  | jeq (a : Byte)
  /-- 42_control.md R142. -/
  | jne (a : Byte)
  /-- 42_control.md R144. -/
  | call (a : Byte)
  /-- 42_control.md R145. -/
  | ret
  /-- 43_data.md R160: `b` is the immediate. -/
  | ldi (a b : Byte)
  /-- 43_data.md R161: `a` names the address, `b` the value. -/
  | st (a b : Byte)
  /-- 43_data.md R162. -/
  | push (a : Byte)
  /-- 43_data.md R163. -/
  | pop (a : Byte)
  /-- 43_data.md R164. -/
  | prn (a : Byte)
  /-- 43_data.md R165. -/
  | hlt
deriving DecidableEq, Repr

/-- The instruction latch: the bytes fetched at pc, pc+1 and pc+2 (10_state.md R35, 40_cycle.md R101). It lives within
one step only, so it is no field of State (log 10). -/
structure Latch where
  op : Byte
  a : Byte
  b : Byte
deriving DecidableEq, Repr

end Sys2Proof
end

