-- ==== Sys2Proof/WellFormed.lean ====
section
/-! DEFINITION. Well-formed instructions: every register operand is 0..7, "in valid programs" (10_state.md R24). The
machine runs the others too, and stops where their rule uses the bad index. -/

namespace Sys2Proof

/-- A register operand byte that names a register (10_state.md R24). -/
abbrev IsRegister (i : Byte) : Prop := i.toNat < 8

/-- The check on the register operands of each instruction; the operand kinds are those of 30_encoding.md R74. The
immediate of LDI is any byte (43_data.md R160). -/
abbrev Instr.WellFormed (i : Instr) : Prop :=
  match i with
  | .add a b => IsRegister a ∧ IsRegister b
  | .mul a b => IsRegister a ∧ IsRegister b
  | .and a b => IsRegister a ∧ IsRegister b
  | .or a b => IsRegister a ∧ IsRegister b
  | .xor a b => IsRegister a ∧ IsRegister b
  | .cmp a b => IsRegister a ∧ IsRegister b
  | .jmp a => IsRegister a
  | .jeq a => IsRegister a
  | .jne a => IsRegister a
  | .call a => IsRegister a
  | .ret => True
  | .ldi a _ => IsRegister a
  | .st a b => IsRegister a ∧ IsRegister b
  | .push a => IsRegister a
  | .pop a => IsRegister a
  | .prn a => IsRegister a
  | .hlt => True

end Sys2Proof
end

