-- ==== Sys2Proof/Decode.lean ====
section
/-! DEFINITION. The opcode byte's fields, the two decoders and the encoder (30_encoding.md, 40_cycle.md R102 to R105). -/

namespace Sys2Proof

/-! ## Fields of the opcode byte (30_encoding.md R71, 40_cycle.md R102) -/

/-- `AA`, bits 7..6: the number of operand bytes after the opcode. -/
def opCount (op : Byte) : Nat := (op.extractLsb 7 6).toNat

/-- `B`, bit 5: the opcode goes to the ALU decoder. -/
def opAlu (op : Byte) : Bool := op.getLsbD 5

/-- `C`, bit 4: the handler writes the pc and the sequencer does not advance it. -/
def opPcSet (op : Byte) : Bool := op.getLsbD 4

/-- The instruction length, from the opcode byte alone (30_encoding.md R72). -/
def insnLength (op : Byte) : Nat := 1 + opCount op

/-! ## The opcode map (30_encoding.md R80)

The numeric values are the LS-8 assignments, which the spec takes from general knowledge: UNVERIFIED (log 6). -/

/-- What stands for one opcode: the instruction made of the two trailing bytes `a` and `b`. -/
abbrev Former := Byte → Byte → Instr

/-- The ALU table (40_cycle.md R105). -/
def aluTable : List (Byte × Former) :=
  [(0xA0#8, fun a b => .add a b),
   (0xA2#8, fun a b => .mul a b),
   (0xA8#8, fun a b => .and a b),
   (0xAA#8, fun a b => .or a b),
   (0xAB#8, fun a b => .xor a b),
   (0xA7#8, fun a b => .cmp a b)]

/-- The general table (40_cycle.md R104). A byte that the format does not have is ignored (30_encoding.md R73). -/
def generalTable : List (Byte × Former) :=
  [(0x54#8, fun a _ => .jmp a),
   (0x55#8, fun a _ => .jeq a),
   (0x56#8, fun a _ => .jne a),
   (0x50#8, fun a _ => .call a),
   (0x11#8, fun _ _ => .ret),
   (0x82#8, fun a b => .ldi a b),
   (0x84#8, fun a b => .st a b),
   (0x45#8, fun a _ => .push a),
   (0x46#8, fun a _ => .pop a),
   (0x47#8, fun a _ => .prn a),
   (0x01#8, fun _ _ => .hlt)]

/-! ## The decoder -/

/-- What the decoder answers: an instruction, or which table lacks the opcode. Both misses are the one DecodeError
(40_cycle.md R105, 92_eei_decisions.md D15). -/
inductive Decoded where
  | instr (i : Instr)
  /-- Bit 5 is clear and the general table lacks the opcode: "unrecognized instruction" (40_cycle.md R104). -/
  | unrecognizedInstruction (op : Byte)
  /-- Bit 5 is set and the ALU table lacks the opcode: "Unsupported ALU opcode" (40_cycle.md R105). -/
  | unsupportedAluOpcode (op : Byte)
deriving DecidableEq, Repr

/-- The row of a table whose opcode is `op`, matched on all 8 bits (30_encoding.md R80). -/
def lookupOpcode (table : List (Byte × Former)) (op : Byte) : Option Former :=
  match table with
  | [] => none
  | row :: rest => if row.1 = op then some row.2 else lookupOpcode rest op

/-- The dispatch multiplexer and the two decoders, matched on the full opcode byte (40_cycle.md R103 to R105). -/
def decode (l : Latch) : Decoded :=
  if opAlu l.op then
    match lookupOpcode aluTable l.op with
    | some f => .instr (f l.a l.b)
    | none => .unsupportedAluOpcode l.op
  else
    match lookupOpcode generalTable l.op with
    | some f => .instr (f l.a l.b)
    | none => .unrecognizedInstruction l.op

/-- The instruction of a decoder's answer, if there is one. -/
def Decoded.instr? : Decoded → Option Instr
  | .instr i => some i
  | .unrecognizedInstruction _ => none
  | .unsupportedAluOpcode _ => none

/-! ## The encoder -/

/-- The bytes of an instruction at increasing addresses: opcode, then `a`, then `b` (30_encoding.md R70, R80, 20_memory.md
R54). -/
def encode (i : Instr) : List Byte :=
  match i with
  | .add a b => [0xA0#8, a, b]
  | .mul a b => [0xA2#8, a, b]
  | .and a b => [0xA8#8, a, b]
  | .or a b => [0xAA#8, a, b]
  | .xor a b => [0xAB#8, a, b]
  | .cmp a b => [0xA7#8, a, b]
  | .jmp a => [0x54#8, a]
  | .jeq a => [0x55#8, a]
  | .jne a => [0x56#8, a]
  | .call a => [0x50#8, a]
  | .ret => [0x11#8]
  | .ldi a b => [0x82#8, a, b]
  | .st a b => [0x84#8, a, b]
  | .push a => [0x45#8, a]
  | .pop a => [0x46#8, a]
  | .prn a => [0x47#8, a]
  | .hlt => [0x01#8]

/-! ## Words numbered as spec/opcode_table.json numbers them -/

/-- The three bytes of the number `w` of `nbits` bits: byte 0 is the opcode, and every bit from `nbits` up is 0. -/
def latchOfWord (nbits w : Nat) : Latch :=
  let v := w % 2 ^ nbits
  ⟨BitVec.ofNat 8 v, BitVec.ofNat 8 (v / 2 ^ 8), BitVec.ofNat 8 (v / 2 ^ 16)⟩

/-- The instruction the decoder reads from a table row's word. -/
def decodeTableWord (nbits w : Nat) : Option Instr := (decode (latchOfWord nbits w)).instr?

end Sys2Proof
end

