-- ==== Sys2Proof/Machine/Ops.lean ====
section
/-! DEFINITION. The named operations over memory, registers and the pc: the pseudocode primitives of 00_scope.md R11, the
stop that `raise` makes (60_exceptions.md R180), the fetch (40_cycle.md R101) and the PC advance (40_cycle.md R107).

An operation that may stop takes what comes after it as its last argument, so a later statement never runs after a
`raise` and the effects of the earlier ones stay (60_exceptions.md R180, R183). -/

namespace Sys2Proof.Machine

/-! ## Memory (20_memory.md R50 to R52) -/

/-- What an address that is not listed reads as: RESET_MEM_FILL at its reference value. DESIGN CHOICE (log 5). -/
def Memory.unlisted : Byte := 0x00#8

/-- The byte listed at `a`, or the fill (20_memory.md R51). -/
def Memory.read (m : Memory) (a : Byte) : Byte :=
  match m with
  | [] => Memory.unlisted
  | c :: rest => if c.1 = a.toNat then c.2 else Memory.read rest a

/-- Put a cell in front of the first one with a higher address. -/
def Memory.insert (c : Host.Cell) (m : Memory) : Memory :=
  match m with
  | [] => [c]
  | d :: rest => if c.1 < d.1 then c :: d :: rest else d :: Memory.insert c rest

/-- Replace the byte at `a` (20_memory.md R52), keeping the canonical form: a byte equal to the fill is not listed. -/
def Memory.write (m : Memory) (a v : Byte) : Memory :=
  let others := m.filter fun c => c.1 != a.toNat
  if v = Memory.unlisted then others else Memory.insert (a.toNat, v) others

/-- The canonical form: addresses strictly rising, all of them 0..255 (20_memory.md R50), no entry equal to the fill. -/
abbrev Memory.wf (m : Memory) : Prop :=
  m.Pairwise (fun c d => c.1 < d.1) ∧ ∀ c ∈ m, c.1 < 256 ∧ c.2 ≠ Memory.unlisted

/-- The memory that holds `cells[k]` at each address k, in canonical form. -/
def Memory.ofCells (cells : Vector Byte 256) : Memory :=
  (List.finRange 256).filterMap fun k =>
    if cells[k] = Memory.unlisted then none else some (k.val, cells[k])

/-! ## Reads and writes of one piece of state -/

/-- R7 is the stack pointer (10_state.md R22). -/
def spIndex : Fin 8 := 7

/-- `x[r]` for a register that exists (10_state.md R26). -/
def State.reg (s : State) (r : Fin 8) : Byte := s.x[r]

/-- `x[r] <- v` (10_state.md R26). -/
def State.setReg (s : State) (r : Fin 8) (v : Byte) : State := { s with x := s.x.set r v }

/-- `SP`, another name of R7 (10_state.md R22). -/
def State.sp (s : State) : Byte := s.reg spIndex

/-- `pc <- target` (10_state.md R27). -/
def State.setPc (s : State) (target : Byte) : State := { s with pc := target }

/-- `FL <- v` (10_state.md R28). -/
def State.setFl (s : State) (v : Byte) : State := { s with fl := v }

/-- `run <- r` (10_state.md R30). -/
def State.setRun (s : State) (r : RunState) : State := { s with run := r }

/-- `MemRead(a, 1)` (20_memory.md R51). -/
def State.memRead (s : State) (a : Byte) : Byte := Memory.read s.mem a

/-- `MemWrite(a, 1, v)` (20_memory.md R52). -/
def State.memWrite (s : State) (a v : Byte) : State := { s with mem := Memory.write s.mem a v }

/-- `Emit(v)`: append one byte to the console output port (10_state.md R33). -/
def State.emit (s : State) (v : Byte) : State := { s with out := s.out ++ [v] }

/-! ## Stops (60_exceptions.md R180) -/

/-- `raise`: the step ends at once and `run` records the event. Nothing else changes: there is no vector, no saved
context and no mode (60_exceptions.md R180, R189), and no way back but reset (R190). -/
def State.raise (s : State) (event : RunState) : Result := .next (s.setRun event)

/-- `raise GuestUB(kind)` (60_exceptions.md R183). -/
def State.raiseGuestUB (s : State) (kind : GuestUB) : Result := s.raise (.guestUB kind)

/-- `raise DecodeError(op)`: recorded with the address of the opcode byte (60_exceptions.md R181). -/
def State.raiseDecodeError (s : State) (op : Byte) : Result := s.raise (.decodeError op s.pc)

/-- `Halt(OK)` (10_state.md R30). -/
def State.halt (s : State) : Result := .next (s.setRun .haltedOk)

/-! ## Address arithmetic (20_memory.md R53) -/

/-- `wrapadd(a, k)` under a policy; `none` is the `raise` of the `fault` policy. -/
def wrapadd (policy : WrapPolicy) (a : Byte) (k : Int) : Option Byte :=
  let sum : Int := a.toNat + k
  match policy with
  | .wrap => some (BitVec.ofInt 8 sum)
  | .fault => if 0 ≤ sum ∧ sum ≤ 255 then some (BitVec.ofInt 8 sum) else none

/-- Compute `wrapadd(a, k)` under the state's policy and go on with it, or `raise GuestUB(AddressOutOfRange)`. -/
def State.withWrapadd (s : State) (a : Byte) (k : Int) (cont : Byte → Result) : Result :=
  match wrapadd s.wrapPolicy a k with
  | some sum => cont sum
  | none => s.raiseGuestUB .addressOutOfRange

/-- `x[7] <- wrapadd(x[7], k)`, then go on: PUSH and CALL take k = -1, POP and RET k = 1. -/
def State.moveSp (s : State) (k : Int) (cont : State → Result) : Result :=
  s.withWrapadd s.sp k fun sp' => cont (s.setReg spIndex sp')

/-! ## The sequencer's own operations -/

/-- The three bytes at pc, pc+1 and pc+2, whatever the opcode's length (40_cycle.md R101); `none` is the `raise` of the
`fault` policy, which comes before decode (60_exceptions.md R188). -/
def State.fetch? (s : State) : Option Latch :=
  (wrapadd s.wrapPolicy s.pc 1).bind fun pc1 =>
    (wrapadd s.wrapPolicy s.pc 2).map fun pc2 => ⟨s.memRead s.pc, s.memRead pc1, s.memRead pc2⟩

/-- Fetch and go on with the latch, or `raise GuestUB(AddressOutOfRange)`. -/
def State.withFetch (s : State) (cont : Latch → Result) : Result :=
  match s.fetch? with
  | some l => cont l
  | none => s.raiseGuestUB .addressOutOfRange

/-- The PC-advance multiplexer: unless the handler stopped the core or bit 4 is set, pc moves past the instruction, by
the length its opcode byte gives (40_cycle.md R107, R111). -/
def State.advance (s : State) (op : Byte) : Result :=
  if s.run = .running ∧ opPcSet op = false then
    s.withWrapadd s.pc (insnLength op) fun pc' => .next (s.setPc pc')
  else .next s

/-- What follows the handler: the PC advance, from the state the handler left (40_cycle.md R107, R108). -/
def advanceAfter (op : Byte) (r : Result) : Result :=
  match r with
  | .next t => t.advance op
  | .fault f => .fault f
  | .refused f => .refused f

end Sys2Proof.Machine
end

