-- ==== Sys2Proof/Machine/Operands.lean ====
section
/-! DEFINITION. The operand forms of 30_encoding.md R74: a register read, a register written, two registers read, the top
of the stack. A register index is checked where the rule uses it and nowhere else (10_state.md R24). -/

namespace Sys2Proof.Machine

/-- The register an operand byte names, if it is 0..7 (10_state.md R24). No wrap to the low 3 bits (91_not_in_source.md N22). -/
def regIndex (i : Byte) : Option (Fin 8) :=
  if h : i.toNat < 8 then some ⟨i.toNat, h⟩ else none

/-- Read `x[i]` and go on with it, or `raise GuestUB(BadRegisterIndex)` (10_state.md R24). -/
def State.readReg (s : State) (i : Byte) (cont : Byte → Result) : Result :=
  match regIndex i with
  | some r => cont (s.reg r)
  | none => s.raiseGuestUB .badRegisterIndex

/-- `x[i] <- v` and go on, or `raise GuestUB(BadRegisterIndex)` (10_state.md R24). -/
def State.writeReg (s : State) (i v : Byte) (cont : State → Result) : Result :=
  match regIndex i with
  | some r => cont (s.setReg r v)
  | none => s.raiseGuestUB .badRegisterIndex

/-- Read `x[a]`, then `x[b]`: the order in which the two indices are checked (60_exceptions.md R188). -/
def State.readRegs (s : State) (a b : Byte) (cont : Byte → Byte → Result) : Result :=
  s.readReg a fun va => s.readReg b fun vb => cont va vb

/-- The byte at the top of the stack, `MemRead(x[7], 1)` (42_control.md R145, 43_data.md R163). -/
def State.stackTop (s : State) : Byte := s.memRead s.sp

/-- Store at the stack pointer, `MemWrite(x[7], 1, v)` (42_control.md R144, 43_data.md R162). -/
def State.storeAtSp (s : State) (v : Byte) : State := s.memWrite s.sp v

/-- Jump to the address in a register, `pc <- x[a]` (42_control.md R143). -/
def State.jumpToReg (s : State) (a : Byte) : Result :=
  s.readReg a fun target => .next (s.setPc target)

/-- The two-operand ALU form: read both registers, write the first (41_alu.md R126). -/
def State.aluBinary (s : State) (f : Byte → Byte → Byte) (a b : Byte) : Result :=
  s.readRegs a b fun va vb => s.writeReg a (f va vb) .next

end Sys2Proof.Machine
end

