-- ==== Sys2Proof/Machine/Alu.lean ====
section
/-! DEFINITION. The six ALU handlers (41_alu.md). The PC advance is the sequencer's. -/

namespace Sys2Proof.Machine

/-- ADD: `x[a] <- (x[a] + x[b]) mod 256` (41_alu.md R120). -/
def execAdd (a b : Byte) (s : State) : Result := s.aluBinary aluAdd a b

/-- MUL: `x[a] <- (x[a] * x[b]) mod 256` (41_alu.md R121). -/
def execMul (a b : Byte) (s : State) : Result := s.aluBinary aluMul a b

/-- AND (41_alu.md R122). -/
def execAnd (a b : Byte) (s : State) : Result := s.aluBinary aluAnd a b

/-- OR (41_alu.md R123). -/
def execOr (a b : Byte) (s : State) : Result := s.aluBinary aluOr a b

/-- XOR (41_alu.md R124). -/
def execXor (a b : Byte) (s : State) : Result := s.aluBinary aluXor a b

/-- CMP writes FL and nothing else (41_alu.md R125). -/
def execCmp (a b : Byte) (s : State) : Result :=
  s.readRegs a b fun va vb => .next (s.setFl (compareFlags va vb))

end Sys2Proof.Machine
end

