-- ==== Sys2Proof/Machine/Control.lean ====
section
/-! DEFINITION. The five PC-setting handlers (42_control.md). Each writes pc on every path that does not stop; the
sequencer does not advance it. `s.pc` is the address of the instruction's own opcode byte. -/

namespace Sys2Proof.Machine

/-- The explicit advance of a branch that is not taken, `pc <- wrapadd(pc, 2)` (42_control.md R141, R142). -/
def State.fallThrough (s : State) : Result :=
  s.withWrapadd s.pc 2 fun pc' => .next (s.setPc pc')

/-- JMP (42_control.md R140). -/
def execJmp (a : Byte) (s : State) : Result := s.jumpToReg a

/-- JEQ: the register is read, and its index checked, only when E is set (42_control.md R141). -/
def execJeq (a : Byte) (s : State) : Result :=
  if flagE s.fl then s.jumpToReg a else s.fallThrough

/-- JNE: the register is read, and its index checked, only when E is clear (42_control.md R142). -/
def execJne (a : Byte) (s : State) : Result :=
  if flagE s.fl then s.fallThrough else s.jumpToReg a

/-- CALL: push `pc + 2`, then jump; `x[a]` is read after the push (42_control.md R144). -/
def execCall (a : Byte) (s : State) : Result :=
  s.withWrapadd s.pc 2 fun ret =>
    s.moveSp (-1) fun s1 => (s1.storeAtSp ret).jumpToReg a

/-- RET: pc becomes the byte at the top of the stack as it was, and SP is raised (42_control.md R145). pc changes only at
the end of the cycle (10_state.md R27), so when the increment stops under `fault` pc keeps the RET's own address
(40_cycle.md R107): DEDUCED (log 11). -/
def execRet (s : State) : Result :=
  s.moveSp 1 fun s1 => .next (s1.setPc s.stackTop)

end Sys2Proof.Machine
end

