-- ==== Sys2Proof/Machine/Data.lean ====
section
/-! DEFINITION. The data movement, stack, output and halt handlers (43_data.md). The PC advance is the sequencer's. -/

namespace Sys2Proof.Machine

/-- LDI: `x[a] <- b` (43_data.md R160). -/
def execLdi (a b : Byte) (s : State) : Result := s.writeReg a b .next

/-- ST: the value of `x[b]` goes to the address in `x[a]` (43_data.md R161). -/
def execSt (a b : Byte) (s : State) : Result :=
  s.readRegs a b fun addr v => .next (s.memWrite addr v)

/-- PUSH: lower SP, then store `x[a]`, read after the decrement (43_data.md R162). -/
def execPush (a : Byte) (s : State) : Result :=
  s.moveSp (-1) fun s1 => s1.readReg a fun v => .next (s1.storeAtSp v)

/-- POP: load into `x[a]`, then raise SP as the load left it (43_data.md R163). -/
def execPop (a : Byte) (s : State) : Result :=
  s.writeReg a s.stackTop fun s1 => s1.moveSp 1 .next

/-- PRN: append `x[a]` to the console output port (43_data.md R164). -/
def execPrn (a : Byte) (s : State) : Result :=
  s.readReg a fun v => .next (s.emit v)

/-- HLT: stop for good; pc keeps the HLT's address (43_data.md R165). -/
def execHlt (s : State) : Result := s.halt

end Sys2Proof.Machine
end

