-- ==== Sys2Proof/Machine/Step.lean ====
section
/-! DEFINITION. One step: fetch, decode, run the handler, advance pc (40_cycle.md R108). -/

namespace Sys2Proof.Machine

/-- One step of the core (40_cycle.md R100, R108). Both decoders' misses raise the same DecodeError (R104, R105). -/
def step (s : State) : Host.Outcome State Fault Refusal :=
  if s.run = .running then
    s.withFetch fun l =>
      match decode l with
      | .instr i => advanceAfter l.op (exec i s)
      | .unrecognizedInstruction op => s.raiseDecodeError op
      | .unsupportedAluOpcode op => s.raiseDecodeError op
  else .next s

/-- `s` with the instruction whose bits are `w` at pc, so that the next step runs it: the three bytes a step fetches
(40_cycle.md R101) are written and the core is set running (R100). It stands for the host's load of a program (log 14). -/
def State.withFetchWord (s : State) (nbits w : Nat) : State :=
  let l := latchOfWord nbits w
  (((s.setRun .running).memWrite s.pc l.op).memWrite (s.pc + 1#8) l.a).memWrite (s.pc + 2#8) l.b

end Sys2Proof.Machine
end

