-- ==== Sys2Proof/Machine/Platform.lean ====
section
/-! DEFINITION. The host's ports beside `step` (40_cycle.md R112): reset under any parameters, the image load, the trace
observation and the exit status. `run` and `out` are fields of State. -/

namespace Sys2Proof.Machine

/-- The `reset` port: power-on under the parameters `c` (10_state.md R37, 70_reset_and_hazards.md R200 item 1).
SP_RESET is 0xF4 whatever the parameters (00_scope.md R6). -/
def State.powerOn (c : Config) : State where
  x := (c.resetGpr.push 0xF4#8)
  pc := c.resetPc
  fl := c.resetFl
  mem := Memory.ofCells c.resetMemFill
  run := .running
  out := []
  wrapPolicy := c.addressWrapPolicy

/-- The `load(addr, byte)` port: one image byte (40_cycle.md R112). The host calls it only before the first step; the
state holds nothing that could tell, so the rule is the caller's (log 14). -/
def State.load (s : State) (addr v : Byte) : State := s.memWrite addr v

/-- Write image bytes at `addr`, `addr + 1`, and so on. -/
def State.loadFrom (s : State) (addr : Byte) (image : List Byte) : State :=
  match image with
  | [] => s
  | v :: rest => (s.load addr v).loadFrom (addr + 1#8) rest

/-- The loader: image byte k goes to address k, IMAGE_BASE being 0 (20_memory.md R59, 00_scope.md R6). An image of more than
256 bytes is not a valid launch and has no meaning. -/
def State.loadImage (s : State) (image : List Byte) : Result :=
  if image.length ≤ 256 then .next (s.loadFrom 0x00#8 image) else .refused (.imageTooLong image.length)

/-- Power-on and load: the state before the first step (70_reset_and_hazards.md R200 items 1 and 2). -/
def boot (c : Config) (image : List Byte) : Result := (State.powerOn c).loadImage image

/-- What the trace observation port presents (10_state.md R34). -/
structure Trace where
  pc : Byte
  op : Byte
  /-- `MemRead(wrapadd(pc,1),1)`; none where that address does not exist under `fault` (log 12). -/
  a : Option Byte
  /-- `MemRead(wrapadd(pc,2),1)`; none where that address does not exist under `fault` (log 12). -/
  b : Option Byte
  x : Vector Byte 8
deriving DecidableEq, Repr

/-- The `trace` port: a function of the state, so reading it changes nothing (10_state.md R34, 60_exceptions.md R196). -/
def State.trace (s : State) : Trace where
  pc := s.pc
  op := s.memRead s.pc
  a := (wrapadd s.wrapPolicy s.pc 1).map s.memRead
  b := (wrapadd s.wrapPolicy s.pc 2).map s.memRead
  x := s.x

/-- How a launch stands, as the host sees it (60_exceptions.md R185, R186). -/
inductive Launch where
  /-- The program file is absent or unreadable; the core never ran (60_exceptions.md R185). -/
  | fileNotFound
  /-- The core was started and its run state is `r`. -/
  | started (r : RunState)
deriving DecidableEq, Repr

/-- The exit status the host reports; none while the core is running (60_exceptions.md R186). -/
def Launch.exitStatus : Launch → Option Nat
  | .fileNotFound => some Config.exitFileNotFound
  | .started .running => none
  | .started .haltedOk => some Config.exitOk
  | .started (.decodeError _ _) => some Config.exitDecodeError
  | .started (.guestUB _) => some Config.exitGuestUB

end Sys2Proof.Machine
end

