-- ==== Sys2Proof/Safety.lean ====
section
/-! DEFINITION. What counts as the end of a run and as a safe run (70_reset_and_hazards.md R202), and the invariant of
the machine's states. -/

namespace Sys2Proof.Machine

/-- A run is over exactly when run is not RUNNING (70_reset_and_hazards.md R202). -/
abbrev State.Over (s : State) : Prop := s.run ≠ .running

/-- The good end (70_reset_and_hazards.md R202). -/
abbrev State.EndedWell (s : State) : Prop := s.run = .haltedOk

/-- DECODE_ERROR or GUEST_UB: an end at fault (70_reset_and_hazards.md R202). -/
def State.EndedAtFault (s : State) : Bool :=
  match s.run with
  | .running => false
  | .haltedOk => false
  | .decodeError _ _ => true
  | .guestUB _ => true

/-- No number of steps from `s` ends at fault: what "behaves well" must claim (70_reset_and_hazards.md R202). -/
def State.SafeRun (s : State) : Prop :=
  ∀ (k : Nat) (t : State), Host.Core.run Sys2Proof.core k s = .next t → t.EndedAtFault = false

/-- FL holds one of the four bytes it can hold when RESET_FL is 0x00: nothing compared yet, or exactly one of E, G and L
(10_state.md R28, R29). -/
abbrev LegalFl (fl : Byte) : Prop :=
  fl = 0b00000000#8 ∨ fl = 0b00000001#8 ∨ fl = 0b00000010#8 ∨ fl = 0b00000100#8

/-- The invariant every step keeps: memory is in its canonical form, FL is legal, and the core has not stopped for an
address out of range under the `wrap` policy (60_exceptions.md R183). -/
abbrev State.Inv (s : State) : Prop :=
  Memory.wf s.mem ∧ LegalFl s.fl ∧
    (s.wrapPolicy = .wrap → s.run ≠ .guestUB .addressOutOfRange)

/-- The operand bytes an instruction uses as register indices (30_encoding.md R74). -/
def regOperands (i : Instr) : List Byte :=
  match i with
  | .add a b => [a, b]
  | .mul a b => [a, b]
  | .and a b => [a, b]
  | .or a b => [a, b]
  | .xor a b => [a, b]
  | .cmp a b => [a, b]
  | .jmp a => [a]
  | .jeq a => [a]
  | .jne a => [a]
  | .call a => [a]
  | .ret => []
  | .ldi a _ => [a]
  | .st a b => [a, b]
  | .push a => [a]
  | .pop a => [a]
  | .prn a => [a]
  | .hlt => []

end Sys2Proof.Machine
end

