-- ==== Sys2Proof/Certificates/Slice0/Obligations.lean ====
section
/-! DEFINITION. The statements for the provers. Each docstring names the rule of spec/ it follows, and where a clause
rests on one of the spec's own decisions (D<n> of 92_eei_decisions.md) or on an entry of the assumption log, says so. -/

open Sys2Proof Sys2Proof.Machine

/-! ## Encoding -/

/-- 30_encoding.md sections 1 to 3: the bytes of an instruction decode to it, whatever bytes follow an instruction
shorter than the three that are fetched. The opcode values are the spec's general-knowledge ones (log 6). -/
def Obligations.DecodeOfEncodeIsTheInstruction : Prop :=
  ∀ (i : Instr) (l : Latch), encode i <+: [l.op, l.a, l.b] → decode l = .instr i

/-- 30_encoding.md sections 1 to 3: an instruction that is decoded encodes to exactly the bytes its opcode's length
covers, so no bit of them is dropped and no other bytes encode it. -/
def Obligations.EncodeOfDecodeIsTheBytes : Prop :=
  ∀ (l : Latch) (i : Instr), decode l = .instr i → encode i = [l.op, l.a, l.b].take (insnLength l.op)

/-- 30_encoding.md R72: the length is `1 + op[7:6]`, no opcode of the set has `op[7:6]` = 3, and every byte that has it is
illegal. -/
def Obligations.LengthComesFromOperandCount : Prop :=
  (∀ (i : Instr) (op : Byte) (rest : List Byte), encode i = op :: rest →
      (encode i).length = 1 + (op >>> 6).toNat ∧ (op >>> 6).toNat ≤ 2) ∧
  (∀ l : Latch, (l.op >>> 6).toNat = 3 → (decode l).instr? = none)

/-- 30_encoding.md section 3, illegal encodings, and 40_cycle.md section 1, the two decoders: exactly the 17 opcodes of
the map are decoded; any other byte is missed by the ALU decoder if its bit 5 is set and by the general decoder if not.
The set and its values are the spec's decisions D2 and D3 (log 6, log 7). -/
def Obligations.OnlyTheSeventeenOpcodesDecode : Prop :=
  ∀ l : Latch,
    (l.op ∈ [0xA0#8, 0xA2#8, 0xA8#8, 0xAA#8, 0xAB#8, 0xA7#8, 0x54#8, 0x55#8, 0x56#8, 0x50#8, 0x11#8, 0x82#8, 0x84#8,
        0x45#8, 0x46#8, 0x47#8, 0x01#8] → (decode l).instr? ≠ none) ∧
    (l.op ∉ [0xA0#8, 0xA2#8, 0xA8#8, 0xAA#8, 0xAB#8, 0xA7#8, 0x54#8, 0x55#8, 0x56#8, 0x50#8, 0x11#8, 0x82#8, 0x84#8,
        0x45#8, 0x46#8, 0x47#8, 0x01#8] →
      decode l = if l.op.getLsbD 5 then .unsupportedAluOpcode l.op else .unrecognizedInstruction l.op)

/-- Words written out from 30_encoding.md R80 (general-knowledge opcode values, log 6), one or more of each family. A
sanity statement. -/
def Obligations.SpecWordsDecode : Prop :=
  decode ⟨0b10100000#8, 0b00000001#8, 0b00000010#8⟩ = .instr (.add 1#8 2#8) ∧
  decode ⟨0b10100111#8, 0b00000011#8, 0b00000100#8⟩ = .instr (.cmp 3#8 4#8) ∧
  decode ⟨0b01010101#8, 0b00000101#8, 0b11111111#8⟩ = .instr (.jeq 5#8) ∧
  decode ⟨0b00010001#8, 0b00000110#8, 0b11111111#8⟩ = .instr .ret ∧
  decode ⟨0b10000100#8, 0b00000111#8, 0b00000000#8⟩ = .instr (.st 7#8 0#8) ∧
  decode ⟨0b01000110#8, 0b00000010#8, 0b00000001#8⟩ = .instr (.pop 2#8) ∧
  decode ⟨0b00000000#8, 0b00000000#8, 0b00000000#8⟩ = .unrecognizedInstruction 0b00000000#8 ∧
  decode ⟨0b10100001#8, 0b00000000#8, 0b00000000#8⟩ = .unsupportedAluOpcode 0b10100001#8

/-! ## The step -/

/-- 40_cycle.md sections 1 (the whole step, the PC-advance multiplexer): a running step whose fetched bytes decode to an
instruction runs that instruction's handler; then pc is left as the handler left it when bit 4 is set or the handler
stopped the core, and otherwise advances by `1 + op[7:6]` from the handler's state, modulo 256 under `wrap`, with the
address-out-of-range stop under `fault` where it would pass 255. The policy is decision D8, the kept pc of a stopped
handler D20. -/
def Obligations.StepRunsTheDecodedInstruction : Prop :=
  ∀ (s t : State) (l : Latch) (i : Instr),
    s.run = .running → s.fetch? = some l → decode l = .instr i → exec i s = .next t →
    (t.run ≠ .running ∨ l.op.getLsbD 4 = true → step s = .next t) ∧
    (t.run = .running → l.op.getLsbD 4 = false →
      (t.wrapPolicy = .wrap ∨ t.pc.toNat + (1 + (l.op >>> 6).toNat) ≤ 255 →
        step s = .next (t.setPc (BitVec.ofNat 8 (t.pc.toNat + (1 + (l.op >>> 6).toNat))))) ∧
      (t.wrapPolicy = .fault ∧ 255 < t.pc.toNat + (1 + (l.op >>> 6).toNat) →
        step s = .next (t.setRun (.guestUB .addressOutOfRange))))

/-- 40_cycle.md section 1, fetch: the latch holds the bytes at pc, pc+1 and pc+2, whatever they are; across 0xFF the
addresses wrap to 0x00 and 0x01 under `wrap`. Decision D8. -/
def Obligations.FetchReadsThreeBytesAtPc : Prop :=
  ∀ s : State, s.wrapPolicy = .wrap ∨ s.pc.toNat ≤ 253 →
    s.fetch? = some ⟨s.memRead s.pc, s.memRead (BitVec.ofNat 8 ((s.pc.toNat + 1) % 256)),
      s.memRead (BitVec.ofNat 8 ((s.pc.toNat + 2) % 256))⟩

/-- 40_cycle.md section 1 and 60_exceptions.md section 2: under `fault` a fetch at 0xFE or 0xFF stops before decode,
whatever the opcode there, a one-byte or an illegal one included. Decision D8, order D19. -/
def Obligations.FetchPastTheEndStopsUnderFault : Prop :=
  ∀ s : State, s.run = .running → s.wrapPolicy = .fault → 254 ≤ s.pc.toNat →
    step s = .next (s.setRun (.guestUB .addressOutOfRange))

/-- 40_cycle.md R109: a decode error changes nothing but `run`, which records the opcode byte and its address. -/
def Obligations.DecodeErrorChangesOnlyRun : Prop :=
  ∀ (s : State) (l : Latch), s.run = .running → s.fetch? = some l → (decode l).instr? = none →
    step s = .next { s with run := .decodeError (s.memRead s.pc) s.pc }

/-- 40_cycle.md section 1: in any run state but RUNNING a step changes nothing. Decision D20. -/
def Obligations.StoppedStepChangesNothing : Prop :=
  ∀ s : State, s.run ≠ .running → step s = .next s

/-- 60_exceptions.md R182: no event is recoverable. After a DecodeError or a GuestUB no number of steps changes
anything. -/
def Obligations.EventsAreForever : Prop :=
  ∀ (s : State) (k : Nat), (∃ op addr, s.run = .decodeError op addr) ∨ (∃ kind, s.run = .guestUB kind) →
    Host.Core.run Sys2Proof.core k s = .next s

/-- 60_exceptions.md section 1 (every event is recorded in `run`) and log 9: from every state a step answers a next
state. No instruction, operand or byte of memory makes the model fault or refuse. -/
def Obligations.EveryStepAnswersANextState : Prop :=
  ∀ s : State, ∃ t : State, step s = .next t

/-! ## Invariants and whole-machine rules -/

/-- The invariant of Safety.lean is kept by every step: the memory stays in its canonical form, FL stays one of 0, E, G
and L, and under `wrap` the address-out-of-range stop never occurs (10_state.md section 3, 60_exceptions.md section 1).
The canonical form is the model's own (log 5), and FL = 0 before the first CMP is the reference RESET_FL (log 4). -/
def Obligations.StepKeepsTheInvariant : Prop :=
  ∀ s t : State, s.Inv → step s = .next t → t.Inv

/-- The invariant holds after reset. -/
def Obligations.ResetMeetsTheInvariant : Prop := State.reset.Inv

/-- The invariant over any number of steps from any state that meets it. Its canonical memory form is the model's own
choice (log 5), and so is the FL = 0 it allows before the first CMP, the reference RESET_FL (log 4). -/
def Obligations.RunKeepsTheInvariant : Prop :=
  ∀ (k : Nat) (s t : State), s.Inv → Host.Core.run Sys2Proof.core k s = .next t → t.Inv

/-- Log 1: the wrap policy is a parameter. No step changes it. -/
def Obligations.StepKeepsTheWrapPolicy : Prop :=
  ∀ s t : State, step s = .next t → t.wrapPolicy = s.wrapPolicy

/-- 20_memory.md R60: a step that changes memory ran ST, PUSH or CALL. -/
def Obligations.MemoryChangesOnlyByStPushCall : Prop :=
  ∀ s t : State, step s = .next t →
    (∃ l i, s.fetch? = some l ∧ decode l = .instr i ∧
      ((∃ a b, i = .st a b) ∨ (∃ a, i = .push a) ∨ (∃ a, i = .call a))) ∨
    (t.mem = s.mem ∧ ∀ adr : Byte, t.memRead adr = s.memRead adr)

/-- 10_state.md section 3: a step that changes FL ran CMP. -/
def Obligations.FlagsChangeOnlyByCmp : Prop :=
  ∀ s t : State, step s = .next t →
    (∃ l a b, s.fetch? = some l ∧ decode l = .instr (.cmp a b)) ∨ t.fl = s.fl

/-- 10_state.md section 5: the output port is append-only. A step leaves it alone, or it ran PRN and appended the byte of
the register PRN names. -/
def Obligations.OutputGrowsOnlyByPrn : Prop :=
  ∀ s t : State, step s = .next t →
    (∃ (l : Latch) (a : Byte) (ha : a.toNat < 8), s.fetch? = some l ∧ decode l = .instr (.prn a) ∧
      t.out = s.out ++ [s.reg ⟨a.toNat, ha⟩]) ∨
    t.out = s.out

/-- 10_state.md R23: R0..R6 have no hardware role. An instruction none of whose register operands names register r
neither writes it nor reads it: with any other byte in r it does exactly the same to everything else. -/
def Obligations.UnnamedRegistersAreNeitherReadNorWritten : Prop :=
  ∀ (i : Instr) (s t : State) (r : Fin 8) (v : Byte),
    r ≠ 7 → (∀ a ∈ regOperands i, a.toNat ≠ r.val) → exec i s = .next t →
    t.reg r = s.reg r ∧ exec i (s.setReg r v) = .next (t.setReg r v)

/-- 10_state.md R21: no register is hardwired. LDI can name any of R0..R7 and the register then holds the byte, whatever
it is; no other register changes. -/
def Obligations.NoRegisterIsHardwired : Prop :=
  ∀ (s : State) (a v : Byte) (ha : a.toNat < 8),
    ∃ t, exec (.ldi a v) s = .next t ∧ t.reg ⟨a.toNat, ha⟩ = v ∧
      ∀ q : Fin 8, q.val ≠ a.toNat → t.reg q = s.reg q

/-- 10_state.md section 1 and 60_exceptions.md section 1: an instruction whose register operands are all 0..7 never stops
the core under `wrap`, HLT apart, whatever the state. The two stops ruled out are decisions D8 and D9. -/
def Obligations.ValidInstructionsNeverStopUnderWrap : Prop :=
  ∀ (i : Instr) (s t : State), i.WellFormed → i ≠ .hlt → s.wrapPolicy = .wrap → exec i s = .next t → t.run = s.run

/-- 20_memory.md R52: every cell is writable, those of the program included. ST to the address of any cell puts the byte
there, and the next read gives it. That ST R0,R1 takes the address from R0 and the value from R1 is decision D5 (log 16). -/
def Obligations.EveryCellIsWritable : Prop :=
  ∀ (s : State) (adr v : Byte), s.reg 0 = adr → s.reg 1 = v →
    ∃ t, exec (.st 0#8 1#8) s = .next t ∧ t.memRead adr = v ∧
      ∀ other : Byte, other ≠ adr → t.memRead other = s.memRead other

/-- The canonical form makes equal memories equal data (log 5): two memories in it that read alike at every address are
the same list. -/
def Obligations.CanonicalMemoriesThatReadAlikeAreEqual : Prop :=
  ∀ m n : Memory, Memory.wf m → Memory.wf n → (∀ a : Byte, Memory.read m a = Memory.read n a) → m = n

/-- 20_memory.md section 1, address arithmetic: `wrapadd` of any offset, the core's own -1, +1, +2 and +3 among them.
Decision D8. -/
def Obligations.WrapaddIsModuloOrStops : Prop :=
  ∀ (a : Byte) (k : Int),
    wrapadd .wrap a k = some (BitVec.ofNat 8 ((((a.toNat : Int) + k) % 256).toNat)) ∧
    (0 ≤ (a.toNat : Int) + k ∧ (a.toNat : Int) + k ≤ 255 →
      wrapadd .fault a k = some (BitVec.ofNat 8 ((a.toNat : Int) + k).toNat)) ∧
    (¬(0 ≤ (a.toNat : Int) + k ∧ (a.toNat : Int) + k ≤ 255) → wrapadd .fault a k = none)

/-! ## ALU results (41_alu.md). In each, the stop on a bad index is decision D9 (log 8). -/

/-- 41_alu.md, ADD: x[a] becomes the sum modulo 256 and nothing else changes; an index of 8 or more stops the core. -/
def Obligations.AddResult : Prop :=
  ∀ (a b : Byte) (s : State),
    (∀ (ha : a.toNat < 8) (hb : b.toNat < 8), exec (.add a b) s = .next (s.setReg ⟨a.toNat, ha⟩
      (BitVec.ofNat 8 (((s.reg ⟨a.toNat, ha⟩).toNat + (s.reg ⟨b.toNat, hb⟩).toNat) % 256)))) ∧
    (8 ≤ a.toNat ∨ 8 ≤ b.toNat → exec (.add a b) s = .next (s.setRun (.guestUB .badRegisterIndex)))

/-- 41_alu.md, MUL: x[a] becomes the product modulo 256 and nothing else changes. Destination: decision D5. -/
def Obligations.MulResult : Prop :=
  ∀ (a b : Byte) (s : State),
    (∀ (ha : a.toNat < 8) (hb : b.toNat < 8), exec (.mul a b) s = .next (s.setReg ⟨a.toNat, ha⟩
      (BitVec.ofNat 8 (((s.reg ⟨a.toNat, ha⟩).toNat * (s.reg ⟨b.toNat, hb⟩).toNat) % 256)))) ∧
    (8 ≤ a.toNat ∨ 8 ≤ b.toNat → exec (.mul a b) s = .next (s.setRun (.guestUB .badRegisterIndex)))

/-- 41_alu.md, AND: bit by bit; nothing but x[a] changes. Destination: decision D5. -/
def Obligations.AndResult : Prop :=
  ∀ (a b : Byte) (s : State),
    (∀ (ha : a.toNat < 8) (hb : b.toNat < 8), ∃ v : Byte,
      exec (.and a b) s = .next (s.setReg ⟨a.toNat, ha⟩ v) ∧
      ∀ k < 8, v.getLsbD k = ((s.reg ⟨a.toNat, ha⟩).getLsbD k && (s.reg ⟨b.toNat, hb⟩).getLsbD k)) ∧
    (8 ≤ a.toNat ∨ 8 ≤ b.toNat → exec (.and a b) s = .next (s.setRun (.guestUB .badRegisterIndex)))

/-- 41_alu.md, OR: bit by bit; nothing but x[a] changes. Destination: decision D5. -/
def Obligations.OrResult : Prop :=
  ∀ (a b : Byte) (s : State),
    (∀ (ha : a.toNat < 8) (hb : b.toNat < 8), ∃ v : Byte,
      exec (.or a b) s = .next (s.setReg ⟨a.toNat, ha⟩ v) ∧
      ∀ k < 8, v.getLsbD k = ((s.reg ⟨a.toNat, ha⟩).getLsbD k || (s.reg ⟨b.toNat, hb⟩).getLsbD k)) ∧
    (8 ≤ a.toNat ∨ 8 ≤ b.toNat → exec (.or a b) s = .next (s.setRun (.guestUB .badRegisterIndex)))

/-- 41_alu.md, XOR: bit by bit; nothing but x[a] changes. Destination: decision D5. -/
def Obligations.XorResult : Prop :=
  ∀ (a b : Byte) (s : State),
    (∀ (ha : a.toNat < 8) (hb : b.toNat < 8), ∃ v : Byte,
      exec (.xor a b) s = .next (s.setReg ⟨a.toNat, ha⟩ v) ∧
      ∀ k < 8, v.getLsbD k = ((s.reg ⟨a.toNat, ha⟩).getLsbD k != (s.reg ⟨b.toNat, hb⟩).getLsbD k)) ∧
    (8 ≤ a.toNat ∨ 8 ≤ b.toNat → exec (.xor a b) s = .next (s.setRun (.guestUB .badRegisterIndex)))

/-- 41_alu.md, CMP: the unsigned comparison sets E, G or L; FL is one-hot with bits 7..3 clear (decision D11); nothing
else changes, and FL is not written when the instruction stops. -/
def Obligations.CmpResult : Prop :=
  ∀ (a b : Byte) (s : State),
    (∀ (ha : a.toNat < 8) (hb : b.toNat < 8), ∃ f : Byte,
      exec (.cmp a b) s = .next { s with fl := f } ∧
      (f = 0x01#8 ↔ (s.reg ⟨a.toNat, ha⟩).toNat = (s.reg ⟨b.toNat, hb⟩).toNat) ∧
      (f = 0x02#8 ↔ (s.reg ⟨b.toNat, hb⟩).toNat < (s.reg ⟨a.toNat, ha⟩).toNat) ∧
      (f = 0x04#8 ↔ (s.reg ⟨a.toNat, ha⟩).toNat < (s.reg ⟨b.toNat, hb⟩).toNat)) ∧
    (8 ≤ a.toNat ∨ 8 ≤ b.toNat → exec (.cmp a b) s = .next (s.setRun (.guestUB .badRegisterIndex)))

/-- 41_alu.md R126: ADD, MUL, AND, OR and XOR write only x[a] and CMP writes only FL; no ALU operation writes pc, touches
memory or the output, or reads FL; and no instruction but CMP writes FL. `run` changes only by the
bad-index stop, and the clauses on a bad index are decision D9 (log 8). The policy is the model's own field (log 1). -/
def Obligations.AluWritesOnlyItsDestinationAndReadsNoFlag : Prop :=
  ∀ (a b : Byte) (s t : State),
    (∀ i ∈ [Instr.add a b, .mul a b, .and a b, .or a b, .xor a b], exec i s = .next t →
      (∀ q : Fin 8, q.val ≠ a.toNat → t.reg q = s.reg q) ∧ t.fl = s.fl ∧ t.pc = s.pc ∧ t.out = s.out ∧
      t.wrapPolicy = s.wrapPolicy ∧ (t.run = s.run ∨ t.run = .guestUB .badRegisterIndex) ∧
      (∀ adr : Byte, t.memRead adr = s.memRead adr) ∧
      ∀ f : Byte, exec i { s with fl := f } = .next { t with fl := f }) ∧
    (exec (.cmp a b) s = .next t →
      (∀ q : Fin 8, t.reg q = s.reg q) ∧ t.pc = s.pc ∧ t.out = s.out ∧
      t.wrapPolicy = s.wrapPolicy ∧ (t.run = s.run ∨ t.run = .guestUB .badRegisterIndex) ∧
      (∀ adr : Byte, t.memRead adr = s.memRead adr) ∧
      ∀ f : Byte, (a.toNat < 8 ∧ b.toNat < 8 → exec (.cmp a b) { s with fl := f } = .next t) ∧
        (8 ≤ a.toNat ∨ 8 ≤ b.toNat → exec (.cmp a b) { s with fl := f } = .next { t with fl := f })) ∧
    (∀ i : Instr, (∀ a b : Byte, i ≠ .cmp a b) → exec i s = .next t → t.fl = s.fl)

/-! ## Control transfer (42_control.md) -/

/-- 42_control.md, JMP: pc becomes the register's byte, any byte at all, and nothing else changes. The stop on a bad
index is decision D9 (log 8). -/
def Obligations.JmpResult : Prop :=
  ∀ (a : Byte) (s : State),
    (∀ ha : a.toNat < 8, exec (.jmp a) s = .next { s with pc := s.reg ⟨a.toNat, ha⟩ }) ∧
    (8 ≤ a.toNat → exec (.jmp a) s = .next (s.setRun (.guestUB .badRegisterIndex)))

/-- 42_control.md, JMP, corner cases, and 70_reset_and_hazards.md section 1, end of a run: a JMP to its own address loops
forever. No number of steps changes the state. -/
def Obligations.JmpToItselfLoopsForever : Prop :=
  ∀ (s : State) (l : Latch) (a : Byte) (ha : a.toNat < 8) (k : Nat),
    s.run = .running → s.fetch? = some l → decode l = .instr (.jmp a) → s.reg ⟨a.toNat, ha⟩ = s.pc →
    Host.Core.run Sys2Proof.core k s = .next s

/-- 42_control.md, JEQ: taken exactly when bit 0 of FL is set, whatever its other bits; not taken, pc moves by 2 and the
operand is not checked (decision D9). The `fault` policy's stop is decision D8. -/
def Obligations.JeqResult : Prop :=
  ∀ (a : Byte) (s : State),
    (∀ ha : a.toNat < 8, s.fl.getLsbD 0 = true →
      exec (.jeq a) s = .next { s with pc := s.reg ⟨a.toNat, ha⟩ }) ∧
    (8 ≤ a.toNat → s.fl.getLsbD 0 = true →
      exec (.jeq a) s = .next (s.setRun (.guestUB .badRegisterIndex))) ∧
    (s.fl.getLsbD 0 = false → s.wrapPolicy = .wrap ∨ s.pc.toNat ≤ 253 →
      exec (.jeq a) s = .next { s with pc := BitVec.ofNat 8 ((s.pc.toNat + 2) % 256) }) ∧
    (s.fl.getLsbD 0 = false → s.wrapPolicy = .fault → 254 ≤ s.pc.toNat →
      exec (.jeq a) s = .next (s.setRun (.guestUB .addressOutOfRange)))

/-- 42_control.md, JNE: taken exactly when bit 0 of FL is clear, so on G and on L alike; not taken, pc moves by 2. -/
def Obligations.JneResult : Prop :=
  ∀ (a : Byte) (s : State),
    (∀ ha : a.toNat < 8, s.fl.getLsbD 0 = false →
      exec (.jne a) s = .next { s with pc := s.reg ⟨a.toNat, ha⟩ }) ∧
    (8 ≤ a.toNat → s.fl.getLsbD 0 = false →
      exec (.jne a) s = .next (s.setRun (.guestUB .badRegisterIndex))) ∧
    (s.fl.getLsbD 0 = true → s.wrapPolicy = .wrap ∨ s.pc.toNat ≤ 253 →
      exec (.jne a) s = .next { s with pc := BitVec.ofNat 8 ((s.pc.toNat + 2) % 256) }) ∧
    (s.fl.getLsbD 0 = true → s.wrapPolicy = .fault → 254 ≤ s.pc.toNat →
      exec (.jne a) s = .next (s.setRun (.guestUB .addressOutOfRange)))

/-- 42_control.md, CALL: SP goes down by one modulo 256, the cell it then names holds `pc + 2`, and pc becomes x[a] read
after that, so CALL R7 goes to the new SP (decision D10). A bad index stops after the push (D9). Under `fault` it stops,
with nothing done, when `pc + 2` passes 255, and else when SP is 0 (D8). -/
def Obligations.CallResult : Prop :=
  ∀ (a : Byte) (s : State),
    (s.wrapPolicy = .wrap ∨ (s.pc.toNat ≤ 253 ∧ s.sp ≠ 0#8) →
      (∀ ha : a.toNat < 8, exec (.call a) s = .next { s with
          x := s.x.set 7 (s.sp - 1#8)
          mem := Memory.write s.mem (s.sp - 1#8) (BitVec.ofNat 8 ((s.pc.toNat + 2) % 256))
          pc := (s.x.set 7 (s.sp - 1#8))[a.toNat] }) ∧
      (8 ≤ a.toNat → exec (.call a) s = .next { s with
          x := s.x.set 7 (s.sp - 1#8)
          mem := Memory.write s.mem (s.sp - 1#8) (BitVec.ofNat 8 ((s.pc.toNat + 2) % 256))
          run := .guestUB .badRegisterIndex })) ∧
    (s.wrapPolicy = .fault ∧ (254 ≤ s.pc.toNat ∨ s.sp = 0#8) →
      exec (.call a) s = .next (s.setRun (.guestUB .addressOutOfRange)))

/-- 42_control.md, RET: pc becomes the byte at SP and SP goes up by one modulo 256. Under `fault` with SP = 255 it stops
(decision D8); that pc then keeps the RET's address, as 40_cycle.md R107 says of a stopped handler, is the model's
reading of R107 with R145 and R183 (log 11). -/
def Obligations.RetResult : Prop :=
  ∀ s : State,
    (s.wrapPolicy = .wrap ∨ s.sp ≠ 255#8 →
      exec .ret s = .next { s with pc := s.memRead s.sp, x := s.x.set 7 (s.sp + 1#8) }) ∧
    (s.wrapPolicy = .fault ∧ s.sp = 255#8 →
      exec .ret s = .next (s.setRun (.guestUB .addressOutOfRange)))

/-! ## Data movement, stack, output and halt (43_data.md) -/

/-- 43_data.md, LDI: x[a] becomes the immediate, any byte, which is never checked. Bad index: decision D9 (log 8). -/
def Obligations.LdiResult : Prop :=
  ∀ (a b : Byte) (s : State),
    (∀ ha : a.toNat < 8, exec (.ldi a b) s = .next { s with x := s.x.set a.toNat b ha }) ∧
    (8 ≤ a.toNat → exec (.ldi a b) s = .next (s.setRun (.guestUB .badRegisterIndex)))

/-- 43_data.md, ST: the value of x[b] goes to the address in x[a] (operand order: decision D5), and nothing else
changes. -/
def Obligations.StResult : Prop :=
  ∀ (a b : Byte) (s : State),
    (∀ (ha : a.toNat < 8) (hb : b.toNat < 8), exec (.st a b) s =
      .next { s with mem := Memory.write s.mem (s.reg ⟨a.toNat, ha⟩) (s.reg ⟨b.toNat, hb⟩) }) ∧
    (8 ≤ a.toNat ∨ 8 ≤ b.toNat → exec (.st a b) s = .next (s.setRun (.guestUB .badRegisterIndex)))

/-- 43_data.md, PUSH: SP goes down by one modulo 256, then the cell it names holds x[a], so PUSH R7 stores the new SP
(decision D10). A bad index stops after SP has moved (D9). Under `fault` it stops, with nothing done, when SP is 0 (D8). -/
def Obligations.PushResult : Prop :=
  ∀ (a : Byte) (s : State),
    (s.wrapPolicy = .wrap ∨ s.sp ≠ 0#8 →
      (∀ ha : a.toNat < 8, exec (.push a) s = .next { s with
          x := s.x.set 7 (s.sp - 1#8)
          mem := Memory.write s.mem (s.sp - 1#8) (s.x.set 7 (s.sp - 1#8))[a.toNat] }) ∧
      (8 ≤ a.toNat → exec (.push a) s = .next { s with
          x := s.x.set 7 (s.sp - 1#8)
          run := .guestUB .badRegisterIndex })) ∧
    (s.wrapPolicy = .fault ∧ s.sp = 0#8 →
      exec (.push a) s = .next (s.setRun (.guestUB .addressOutOfRange)))

/-- 43_data.md, POP: x[a] becomes the byte at SP, then SP goes up by one modulo 256, so POP R7 leaves that byte plus one
(decision D10). A bad index stops with nothing done (D9). Under `fault` it stops, after x[a] is written, when SP is then
255 (D8). -/
def Obligations.PopResult : Prop :=
  ∀ (a : Byte) (s : State),
    (∀ ha : a.toNat < 8, a.toNat ≠ 7 →
      (s.wrapPolicy = .wrap ∨ s.sp ≠ 255#8 → exec (.pop a) s =
        .next { s with x := (s.x.set a.toNat (s.memRead s.sp) ha).set 7 (s.sp + 1#8) }) ∧
      (s.wrapPolicy = .fault ∧ s.sp = 255#8 → exec (.pop a) s =
        .next { s with x := s.x.set a.toNat (s.memRead s.sp) ha, run := .guestUB .addressOutOfRange })) ∧
    (a.toNat = 7 →
      (s.wrapPolicy = .wrap ∨ s.memRead s.sp ≠ 255#8 → exec (.pop a) s =
        .next { s with x := s.x.set 7 (s.memRead s.sp + 1#8) }) ∧
      (s.wrapPolicy = .fault ∧ s.memRead s.sp = 255#8 → exec (.pop a) s =
        .next { s with x := s.x.set 7 255#8, run := .guestUB .addressOutOfRange })) ∧
    (8 ≤ a.toNat → exec (.pop a) s = .next (s.setRun (.guestUB .badRegisterIndex)))

/-- 43_data.md, PRN: the byte of x[a] is appended to the output port (decision D13) and nothing else changes; with a bad
index nothing is emitted (D9). -/
def Obligations.PrnResult : Prop :=
  ∀ (a : Byte) (s : State),
    (∀ ha : a.toNat < 8, exec (.prn a) s = .next { s with out := s.out ++ [s.reg ⟨a.toNat, ha⟩] }) ∧
    (8 ≤ a.toNat → exec (.prn a) s = .next (s.setRun (.guestUB .badRegisterIndex)))

/-- 43_data.md R165: HLT sets `run` to HALTED_OK and changes nothing else; a step that runs it leaves pc at the HLT, and
no later step changes anything; the host reports status 0. -/
def Obligations.HltResult : Prop :=
  (∀ s : State, exec .hlt s = .next { s with run := .haltedOk }) ∧
  (∀ (s : State) (l : Latch), s.run = .running → s.fetch? = some l → decode l = .instr .hlt →
    step s = .next { s with run := .haltedOk } ∧
    ∀ k : Nat, Host.Core.run Sys2Proof.core k { s with run := .haltedOk } = .next { s with run := .haltedOk }) ∧
  (Launch.started .haltedOk).exitStatus = some 0

/-! ## Frames -/

/-- What the register loads LDI, POP and RET leave unchanged: every register but the destination and, for POP and RET,
SP; every byte of memory; FL, the output and the policy (log 1); `run` but for the stops of D8 and D9; pc but for RET. -/
def Obligations.FrameOfRegisterLoads : Prop :=
  ∀ (a b : Byte) (s t : State),
    (exec (.ldi a b) s = .next t →
      (∀ q : Fin 8, q.val ≠ a.toNat → t.reg q = s.reg q) ∧ t.pc = s.pc ∧ t.fl = s.fl ∧ t.out = s.out ∧
      t.wrapPolicy = s.wrapPolicy ∧ (t.run = s.run ∨ t.run = .guestUB .badRegisterIndex) ∧
      ∀ adr : Byte, t.memRead adr = s.memRead adr) ∧
    (exec (.pop a) s = .next t →
      (∀ q : Fin 8, q.val ≠ a.toNat → q ≠ 7 → t.reg q = s.reg q) ∧ t.pc = s.pc ∧ t.fl = s.fl ∧ t.out = s.out ∧
      t.wrapPolicy = s.wrapPolicy ∧ (t.run = s.run ∨ ∃ kind, t.run = .guestUB kind) ∧
      ∀ adr : Byte, t.memRead adr = s.memRead adr) ∧
    (exec .ret s = .next t →
      (∀ q : Fin 8, q ≠ 7 → t.reg q = s.reg q) ∧ t.fl = s.fl ∧ t.out = s.out ∧
      t.wrapPolicy = s.wrapPolicy ∧ (t.run = s.run ∨ t.run = .guestUB .addressOutOfRange) ∧
      ∀ adr : Byte, t.memRead adr = s.memRead adr)

/-- What JMP, JEQ, JNE, PRN and HLT leave unchanged: every register, FL, the policy (log 1) and every byte of memory; the jumps
the output; PRN and HLT pc; `run` but for the stops of D8 and D9 and HLT's own. -/
def Obligations.FrameOfJumpsOutputAndHalt : Prop :=
  ∀ (a : Byte) (s t : State), ∀ i ∈ [Instr.jmp a, .jeq a, .jne a, .prn a, .hlt], exec i s = .next t →
    (∀ q : Fin 8, t.reg q = s.reg q) ∧ t.fl = s.fl ∧ t.wrapPolicy = s.wrapPolicy ∧
    (∀ adr : Byte, t.memRead adr = s.memRead adr) ∧
    (i ≠ .prn a → t.out = s.out) ∧ (i = .prn a ∨ i = .hlt → t.pc = s.pc) ∧
    (i ≠ .hlt → t.run = s.run ∨ ∃ kind, t.run = .guestUB kind)

/-- What the storing instructions leave unchanged. ST: every register and pc. PUSH and CALL: every register but SP, and
PUSH pc. All three: FL, the output, the policy (log 1), and every byte of memory but the one stored to, whose address is the one
the meaning computes: the register x[a] for ST, `wrapadd(x[7], -1)` for PUSH and CALL. Where that address does not exist
(a bad index, a stop under `fault`) every byte reads as before. -/
def Obligations.FrameOfStores : Prop :=
  ∀ (a b : Byte) (s t : State),
    (exec (.st a b) s = .next t →
      (∀ q : Fin 8, t.reg q = s.reg q) ∧ t.pc = s.pc ∧ t.fl = s.fl ∧ t.out = s.out ∧
      t.wrapPolicy = s.wrapPolicy ∧ (t.run = s.run ∨ t.run = .guestUB .badRegisterIndex) ∧
      ∀ adr : Byte, (regIndex a).map s.reg ≠ some adr → t.memRead adr = s.memRead adr) ∧
    (∀ i ∈ [Instr.push a, .call a], exec i s = .next t →
      (∀ q : Fin 8, q ≠ 7 → t.reg q = s.reg q) ∧ t.fl = s.fl ∧ t.out = s.out ∧
      t.wrapPolicy = s.wrapPolicy ∧ (t.run = s.run ∨ ∃ kind, t.run = .guestUB kind) ∧
      (i = .push a → t.pc = s.pc) ∧
      ∀ adr : Byte, wrapadd s.wrapPolicy s.sp (-1) ≠ some adr → t.memRead adr = s.memRead adr)

/-! ## Laws over two instructions -/

/-- 42_control.md section 2: a RET after a CALL resumes at the instruction after the CALL with SP as it was, if the code
between left SP, the pushed cell and the policy as the CALL left them. The spec marks the law as derived. -/
def Obligations.CallThenRetResumesAfterTheCall : Prop :=
  ∀ (s t u : State) (a : Byte), a.toNat < 8 →
    s.wrapPolicy = .wrap ∨ (1 ≤ s.sp.toNat ∧ s.pc.toNat ≤ 253) →
    exec (.call a) s = .next t →
    u.sp = t.sp → u.memRead t.sp = t.memRead t.sp → u.wrapPolicy = t.wrapPolicy →
    ∃ v, exec .ret u = .next v ∧ v.pc = BitVec.ofNat 8 ((s.pc.toNat + 2) % 256) ∧ v.sp = s.sp

/-- 43_data.md section 2: a POP after a PUSH of the same register gives the register and SP back, R7 included, under
`wrap`, if what ran between left SP, the register, the pushed cell and the policy alone. The spec marks the law as
derived. -/
def Obligations.PushThenPopRestores : Prop :=
  ∀ (s t u : State) (a : Byte) (ha : a.toNat < 8), s.wrapPolicy = .wrap →
    exec (.push a) s = .next t →
    u.sp = t.sp → u.reg ⟨a.toNat, ha⟩ = t.reg ⟨a.toNat, ha⟩ → u.memRead t.sp = t.memRead t.sp →
    u.wrapPolicy = t.wrapPolicy →
    ∃ v, exec (.pop a) u = .next v ∧ v.reg ⟨a.toNat, ha⟩ = s.reg ⟨a.toNat, ha⟩ ∧ v.sp = s.sp

/-- 20_memory.md section 5 and 70_reset_and_hazards.md section 2: a step that runs ST stores the byte its fetched operands
name, and the very next fetch reads memory with that byte in it, one of the ST's own or the next instruction's included.
Stated under `wrap`. Decision D16. -/
def Obligations.NextFetchSeesTheStore : Prop :=
  ∀ (s : State) (l : Latch) (a b : Byte) (ha : a.toNat < 8) (hb : b.toNat < 8),
    s.run = .running → s.wrapPolicy = .wrap → s.fetch? = some l → decode l = .instr (.st a b) →
    ∃ t, step s = .next t ∧ t.pc = BitVec.ofNat 8 ((s.pc.toNat + 3) % 256) ∧
      (∀ adr : Byte, t.memRead adr =
        if adr = s.reg ⟨a.toNat, ha⟩ then s.reg ⟨b.toNat, hb⟩ else s.memRead adr) ∧
      t.fetch? = some ⟨t.memRead t.pc, t.memRead (t.pc + 1#8), t.memRead (t.pc + 2#8)⟩

/-- 70_reset_and_hazards.md section 1, end of a run: a run that reaches HLT is safe. From a state whose next instruction is
HLT no number of steps ends at fault. -/
def Obligations.HaltingRunIsSafe : Prop :=
  ∀ (s : State) (l : Latch), s.run = .running → s.fetch? = some l → decode l = .instr .hlt → s.SafeRun

/-! ## Reset, load and the host's ports -/

/-- 10_state.md section 8 and 70_reset_and_hazards.md section 1: power-on under any parameters (decisions D6 and D7 make
them parameters). -/
def Obligations.PowerOnSetsEveryPieceOfState : Prop :=
  ∀ c : Config,
    (State.powerOn c).reg 7 = 0xF4#8 ∧ (∀ r : Fin 7, (State.powerOn c).reg r.castSucc = c.resetGpr[r]) ∧
    (State.powerOn c).pc = c.resetPc ∧ (State.powerOn c).fl = c.resetFl ∧
    (∀ k : Fin 256, (State.powerOn c).memRead (BitVec.ofNat 8 k.val) = c.resetMemFill[k]) ∧
    (State.powerOn c).run = .running ∧ (State.powerOn c).out = []

/-- The model's reset state is power-on at the spec's reference values: the model's choice, log 1 to 5. -/
def Obligations.ResetIsPowerOnAtTheReferenceValues : Prop :=
  State.powerOn Config.reference = State.reset

/-- 20_memory.md section 4: after power-on and load, address k holds image byte k and the cells the image does not cover
hold the fill (decision D7); registers, pc, FL, run and the output are as at power-on. An image of more than 256 bytes is
refused (D23, log 14). -/
def Obligations.LoadPutsTheImageAtZero : Prop :=
  ∀ (c : Config) (image : List Byte),
    (image.length ≤ 256 → ∃ s, boot c image = .next s ∧
      (∀ (k : Nat) (hk : k < 256), s.memRead (BitVec.ofNat 8 k) =
        if h : k < image.length then image[k] else c.resetMemFill[k]) ∧
      s.x = (State.powerOn c).x ∧ s.pc = (State.powerOn c).pc ∧ s.fl = (State.powerOn c).fl ∧
      s.run = .running ∧ s.out = [] ∧ s.wrapPolicy = c.addressWrapPolicy) ∧
    (256 < image.length → boot c image = .refused (.imageTooLong image.length))

/-- 70_reset_and_hazards.md section 1 with RESET_PC at its reference value 0 (log 3): the first step after boot runs the
instruction the image begins with. -/
def Obligations.FirstFetchReadsTheImage : Prop :=
  ∀ (c : Config) (i : Instr) (rest : List Byte) (s : State),
    c.resetPc = 0#8 → (encode i ++ rest).length ≤ 256 → boot c (encode i ++ rest) = .next s →
    ∃ l, s.fetch? = some l ∧ decode l = .instr i ∧ step s = advanceAfter l.op (exec i s)

/-- 10_state.md R34: the trace shows pc, the three bytes the coming step fetches, and x[0]..x[7]. -/
def Obligations.TraceShowsPcFetchedBytesAndRegisters : Prop :=
  ∀ (s : State) (l : Latch), s.fetch? = some l →
    s.trace.pc = s.pc ∧ s.trace.op = l.op ∧ s.trace.a = some l.a ∧ s.trace.b = some l.b ∧
    ∀ r : Fin 8, s.trace.x[r] = s.reg r

/-- 60_exceptions.md section 1, exit status (decision D12): HLT reports 0; the decode-error and file-not-found codes are
not 0 and differ, whatever they are (free constants, log 13); a GUEST_UB status is not 0; a running core has none. -/
def Obligations.ExitStatusesStayDistinguishable : Prop :=
  (Launch.started .haltedOk).exitStatus = some 0 ∧ (Launch.started .running).exitStatus = none ∧
  ∃ d f g : Nat, (∀ op addr, (Launch.started (.decodeError op addr)).exitStatus = some d) ∧
    Launch.fileNotFound.exitStatus = some f ∧ (∀ kind, (Launch.started (.guestUB kind)).exitStatus = some g) ∧
    d ≠ 0 ∧ f ≠ 0 ∧ g ≠ 0 ∧ d ≠ f

/-! ## Where a stop leaves pc -/

/-- 40_cycle.md section 1, the PC-advance multiplexer: a step that stops the core, by HLT or by any event, leaves pc at the
instruction that stopped, and a further step keeps it there. The rule marks this as decision D20; for a RET that stops
under `fault` it is the model's reading (log 11). -/
def Obligations.StoppingStepKeepsPc : Prop :=
  ∀ s t : State, s.run = .running → step s = .next t → t.run ≠ .running → t.pc = s.pc ∧ step t = .next t
end

