-- ==== Sys2Proof/Laws/State.lean ====
section
/-! SUPPORT. What each named update of State does to each field and to what is read through `reg`, `sp` and `memRead`. -/

namespace Sys2Proof.Machine

variable (s : State)

/-! ## setReg -/

@[simp] theorem State.setReg_x (r : Fin 8) (v : Byte) : (s.setReg r v).x = s.x.set r v := rfl
@[simp] theorem State.setReg_pc (r : Fin 8) (v : Byte) : (s.setReg r v).pc = s.pc := rfl
@[simp] theorem State.setReg_fl (r : Fin 8) (v : Byte) : (s.setReg r v).fl = s.fl := rfl
@[simp] theorem State.setReg_mem (r : Fin 8) (v : Byte) : (s.setReg r v).mem = s.mem := rfl
@[simp] theorem State.setReg_run (r : Fin 8) (v : Byte) : (s.setReg r v).run = s.run := rfl
@[simp] theorem State.setReg_out (r : Fin 8) (v : Byte) : (s.setReg r v).out = s.out := rfl
@[simp] theorem State.setReg_wrapPolicy (r : Fin 8) (v : Byte) : (s.setReg r v).wrapPolicy = s.wrapPolicy := rfl
theorem State.setReg_reg (r q : Fin 8) (v : Byte) :
    (s.setReg r v).reg q = if r = q then v else s.reg q := by
  simp [State.reg, State.setReg, Vector.getElem_set, Fin.ext_iff]

@[simp] theorem State.setReg_reg_self (r : Fin 8) (v : Byte) : (s.setReg r v).reg r = v := by
  simp [State.setReg_reg]

theorem State.setReg_reg_of_ne {r q : Fin 8} (h : r ≠ q) (v : Byte) : (s.setReg r v).reg q = s.reg q := by
  simp [State.setReg_reg, h]

@[simp] theorem State.setReg_sp (v : Byte) : (s.setReg spIndex v).sp = v := State.setReg_reg_self s spIndex v

theorem State.setReg_comm {r q : Fin 8} (h : r ≠ q) (v w : Byte) :
    (s.setReg r v).setReg q w = (s.setReg q w).setReg r v := by
  have h' : r.val ≠ q.val := fun e => h (Fin.ext e)
  simp [State.setReg, Vector.set_comm v w h']

@[simp] theorem State.setReg_setReg (r : Fin 8) (v w : Byte) : (s.setReg r v).setReg r w = s.setReg r w := by
  simp [State.setReg]

/-- Writing back what a register holds changes nothing. -/
@[simp] theorem State.setReg_reg_eq (r : Fin 8) : s.setReg r (s.reg r) = s := by
  simp [State.setReg, State.reg]
@[simp] theorem State.setReg_memRead (r : Fin 8) (v : Byte) (a' : Byte) : (s.setReg r v).memRead a' = s.memRead a' := rfl

/-! ## setPc -/

@[simp] theorem State.setPc_x (v : Byte) : (s.setPc v).x = s.x := rfl
@[simp] theorem State.setPc_pc (v : Byte) : (s.setPc v).pc = v := rfl
@[simp] theorem State.setPc_fl (v : Byte) : (s.setPc v).fl = s.fl := rfl
@[simp] theorem State.setPc_mem (v : Byte) : (s.setPc v).mem = s.mem := rfl
@[simp] theorem State.setPc_run (v : Byte) : (s.setPc v).run = s.run := rfl
@[simp] theorem State.setPc_out (v : Byte) : (s.setPc v).out = s.out := rfl
@[simp] theorem State.setPc_wrapPolicy (v : Byte) : (s.setPc v).wrapPolicy = s.wrapPolicy := rfl
@[simp] theorem State.setPc_reg (v : Byte) (q : Fin 8) : (s.setPc v).reg q = s.reg q := rfl
@[simp] theorem State.setPc_sp (v : Byte) : (s.setPc v).sp = s.sp := rfl
@[simp] theorem State.setPc_memRead (v : Byte) (a' : Byte) : (s.setPc v).memRead a' = s.memRead a' := rfl

/-! ## setFl -/

@[simp] theorem State.setFl_x (v : Byte) : (s.setFl v).x = s.x := rfl
@[simp] theorem State.setFl_pc (v : Byte) : (s.setFl v).pc = s.pc := rfl
@[simp] theorem State.setFl_fl (v : Byte) : (s.setFl v).fl = v := rfl
@[simp] theorem State.setFl_mem (v : Byte) : (s.setFl v).mem = s.mem := rfl
@[simp] theorem State.setFl_run (v : Byte) : (s.setFl v).run = s.run := rfl
@[simp] theorem State.setFl_out (v : Byte) : (s.setFl v).out = s.out := rfl
@[simp] theorem State.setFl_wrapPolicy (v : Byte) : (s.setFl v).wrapPolicy = s.wrapPolicy := rfl
@[simp] theorem State.setFl_reg (v : Byte) (q : Fin 8) : (s.setFl v).reg q = s.reg q := rfl
@[simp] theorem State.setFl_sp (v : Byte) : (s.setFl v).sp = s.sp := rfl
@[simp] theorem State.setFl_memRead (v : Byte) (a' : Byte) : (s.setFl v).memRead a' = s.memRead a' := rfl

/-! ## setRun -/

@[simp] theorem State.setRun_x (e : RunState) : (s.setRun e).x = s.x := rfl
@[simp] theorem State.setRun_pc (e : RunState) : (s.setRun e).pc = s.pc := rfl
@[simp] theorem State.setRun_fl (e : RunState) : (s.setRun e).fl = s.fl := rfl
@[simp] theorem State.setRun_mem (e : RunState) : (s.setRun e).mem = s.mem := rfl
@[simp] theorem State.setRun_run (e : RunState) : (s.setRun e).run = e := rfl
@[simp] theorem State.setRun_out (e : RunState) : (s.setRun e).out = s.out := rfl
@[simp] theorem State.setRun_wrapPolicy (e : RunState) : (s.setRun e).wrapPolicy = s.wrapPolicy := rfl
@[simp] theorem State.setRun_reg (e : RunState) (q : Fin 8) : (s.setRun e).reg q = s.reg q := rfl
@[simp] theorem State.setRun_sp (e : RunState) : (s.setRun e).sp = s.sp := rfl
@[simp] theorem State.setRun_memRead (e : RunState) (a' : Byte) : (s.setRun e).memRead a' = s.memRead a' := rfl

/-! ## memWrite -/

@[simp] theorem State.memWrite_x (a v : Byte) : (s.memWrite a v).x = s.x := rfl
@[simp] theorem State.memWrite_pc (a v : Byte) : (s.memWrite a v).pc = s.pc := rfl
@[simp] theorem State.memWrite_fl (a v : Byte) : (s.memWrite a v).fl = s.fl := rfl
@[simp] theorem State.memWrite_mem (a v : Byte) : (s.memWrite a v).mem = Memory.write s.mem a v := rfl
@[simp] theorem State.memWrite_run (a v : Byte) : (s.memWrite a v).run = s.run := rfl
@[simp] theorem State.memWrite_out (a v : Byte) : (s.memWrite a v).out = s.out := rfl
@[simp] theorem State.memWrite_wrapPolicy (a v : Byte) : (s.memWrite a v).wrapPolicy = s.wrapPolicy := rfl
@[simp] theorem State.memWrite_reg (a v : Byte) (q : Fin 8) : (s.memWrite a v).reg q = s.reg q := rfl
@[simp] theorem State.memWrite_sp (a v : Byte) : (s.memWrite a v).sp = s.sp := rfl

/-! ## emit -/

@[simp] theorem State.emit_x (v : Byte) : (s.emit v).x = s.x := rfl
@[simp] theorem State.emit_pc (v : Byte) : (s.emit v).pc = s.pc := rfl
@[simp] theorem State.emit_fl (v : Byte) : (s.emit v).fl = s.fl := rfl
@[simp] theorem State.emit_mem (v : Byte) : (s.emit v).mem = s.mem := rfl
@[simp] theorem State.emit_run (v : Byte) : (s.emit v).run = s.run := rfl
@[simp] theorem State.emit_out (v : Byte) : (s.emit v).out = s.out ++ [v] := rfl
@[simp] theorem State.emit_wrapPolicy (v : Byte) : (s.emit v).wrapPolicy = s.wrapPolicy := rfl
@[simp] theorem State.emit_reg (v : Byte) (q : Fin 8) : (s.emit v).reg q = s.reg q := rfl
@[simp] theorem State.emit_sp (v : Byte) : (s.emit v).sp = s.sp := rfl
@[simp] theorem State.emit_memRead (v : Byte) (a' : Byte) : (s.emit v).memRead a' = s.memRead a' := rfl

end Sys2Proof.Machine
end

