-- ==== Sys2Proof/Laws/Memory.lean ====
section
/-! SUPPORT. Memory: a read after a write, the canonical form, and the contents at power-on. -/

namespace Sys2Proof.Machine

theorem Memory.read_filter_other (m : Memory) {a b : Byte} (h : b ≠ a) :
    Memory.read (m.filter fun c => c.1 != a.toNat) b = Memory.read m b := by
  have hab : a.toNat ≠ b.toNat := fun e => h (BitVec.eq_of_toNat_eq e.symm)
  induction m with
  | nil => rfl
  | cons c rest ih =>
    by_cases hc : c.1 = a.toNat
    · simp [Memory.read, hc, ih, hab]
    · simp [Memory.read, hc, ih]

theorem Memory.read_filter_same (m : Memory) (a : Byte) :
    Memory.read (m.filter fun c => c.1 != a.toNat) a = Memory.unlisted := by
  induction m with
  | nil => rfl
  | cons c rest ih =>
    by_cases hc : c.1 = a.toNat
    · simp [hc, ih]
    · simp [Memory.read, hc, ih]

theorem Memory.read_insert_other (m : Memory) (k : Nat) (v : Byte) {b : Byte} (h : k ≠ b.toNat) :
    Memory.read (Memory.insert (k, v) m) b = Memory.read m b := by
  induction m with
  | nil => simp [Memory.insert, Memory.read, h]
  | cons d rest ih =>
    by_cases hd : k < d.1 <;> simp [Memory.insert, Memory.read, hd, h, ih]

theorem Memory.read_insert_same (m : Memory) (a v : Byte) (h : ∀ c ∈ m, c.1 ≠ a.toNat) :
    Memory.read (Memory.insert (a.toNat, v) m) a = v := by
  induction m with
  | nil => simp [Memory.insert, Memory.read]
  | cons d rest ih =>
    have hd : d.1 ≠ a.toNat := h d (by simp)
    have hr := ih fun c hc => h c (by simp [hc])
    by_cases hlt : a.toNat < d.1 <;> simp [Memory.insert, Memory.read, hlt, hd, hr]

/-- A read after a write to the same address gives the byte written, in every list, canonical or not. -/
@[simp] theorem Memory.read_write_same (m : Memory) (a v : Byte) : Memory.read (Memory.write m a v) a = v := by
  by_cases hv : v = Memory.unlisted
  · simp [Memory.write, hv, Memory.read_filter_same]
  · simp only [Memory.write, hv, if_false]
    exact Memory.read_insert_same _ a v (by simp [List.mem_filter])

/-- A write leaves every other address alone. -/
theorem Memory.read_write_other (m : Memory) {a b : Byte} (v : Byte) (h : b ≠ a) :
    Memory.read (Memory.write m a v) b = Memory.read m b := by
  have hab : a.toNat ≠ b.toNat := fun e => h (BitVec.eq_of_toNat_eq e.symm)
  by_cases hv : v = Memory.unlisted
  · simp [Memory.write, hv, Memory.read_filter_other m h]
  · simp only [Memory.write, hv, if_false]
    rw [Memory.read_insert_other _ _ _ hab, Memory.read_filter_other m h]

theorem Memory.read_write (m : Memory) (a v b : Byte) :
    Memory.read (Memory.write m a v) b = if b = a then v else Memory.read m b := by
  by_cases h : b = a
  · simp [h]
  · simp [h, Memory.read_write_other m v h]

theorem State.memWrite_memRead (s : State) (a v b : Byte) :
    (s.memWrite a v).memRead b = if b = a then v else s.memRead b :=
  Memory.read_write s.mem a v b

@[simp] theorem State.memWrite_memRead_same (s : State) (a v : Byte) : (s.memWrite a v).memRead a = v :=
  Memory.read_write_same s.mem a v

/-! ## The canonical form -/

theorem Memory.mem_insert (c e : Host.Cell) (m : Memory) : e ∈ Memory.insert c m ↔ e = c ∨ e ∈ m := by
  induction m with
  | nil => simp [Memory.insert]
  | cons d rest ih =>
    by_cases h : c.1 < d.1
    · simp [Memory.insert, h]
    · simp [Memory.insert, h, ih, or_left_comm]

theorem Memory.pairwise_insert (c : Host.Cell) (m : Memory) (hm : m.Pairwise (fun x y => x.1 < y.1))
    (hc : ∀ e ∈ m, e.1 ≠ c.1) : (Memory.insert c m).Pairwise (fun x y => x.1 < y.1) := by
  induction m with
  | nil => simp [Memory.insert]
  | cons d rest ih =>
    obtain ⟨hd, hrest⟩ := List.pairwise_cons.1 hm
    have hdc : d.1 ≠ c.1 := hc d (by simp)
    by_cases h : c.1 < d.1
    · simp only [Memory.insert, h, if_true]
      refine List.pairwise_cons.2 ⟨?_, hm⟩
      intro e he
      rcases List.mem_cons.1 he with rfl | he
      · exact h
      · exact h.trans (hd e he)
    · simp only [Memory.insert, h, if_false]
      refine List.pairwise_cons.2 ⟨?_, ih hrest fun e he => hc e (by simp [he])⟩
      intro e he
      rcases (Memory.mem_insert c e rest).1 he with rfl | he
      · omega
      · exact hd e he

/-- A write keeps the canonical form. -/
theorem Memory.write_wf {m : Memory} (h : Memory.wf m) (a v : Byte) : Memory.wf (Memory.write m a v) := by
  obtain ⟨hp, hc⟩ := h
  have hp' : (m.filter fun c => c.1 != a.toNat).Pairwise (fun x y => x.1 < y.1) := hp.filter _
  by_cases hv : v = Memory.unlisted
  · simp only [Memory.write, hv, if_true]
    exact ⟨hp', fun c hmem => hc c (List.mem_filter.1 hmem).1⟩
  · simp only [Memory.write, hv, if_false]
    refine ⟨Memory.pairwise_insert _ _ hp' (by simp [List.mem_filter]), fun c hmem => ?_⟩
    rcases (Memory.mem_insert _ _ _).1 hmem with rfl | hmem
    · exact ⟨a.isLt, hv⟩
    · exact hc c (List.mem_filter.1 hmem).1

theorem Memory.nil_wf : Memory.wf [] := ⟨List.Pairwise.nil, fun c hc => by cases hc⟩

/-- Memory at reset lists nothing, so it is in canonical form. -/
theorem State.reset_mem_wf : Memory.wf State.reset.mem := Memory.nil_wf

/-! ## Power-on contents -/

/-- What `ofCells` lists for the addresses in `ks`. -/
def Memory.cellsAt (cells : Vector Byte 256) (ks : List (Fin 256)) : Memory :=
  ks.filterMap fun k => if cells[k] = Memory.unlisted then none else some (k.val, cells[k])

theorem Memory.cellsAt_cons (cells : Vector Byte 256) (k : Fin 256) (ks : List (Fin 256)) :
    Memory.cellsAt cells (k :: ks) =
      if cells[k] = Memory.unlisted then Memory.cellsAt cells ks
      else (k.val, cells[k]) :: Memory.cellsAt cells ks := by
  by_cases h : cells[k] = Memory.unlisted
  · rw [if_pos h]
    exact List.filterMap_cons_none (if_pos h)
  · rw [if_neg h]
    exact List.filterMap_cons_some (if_neg h)

theorem Memory.cellsAt_read_absent (cells : Vector Byte 256) (ks : List (Fin 256)) (a : Byte)
    (h : ∀ k ∈ ks, k.val ≠ a.toNat) : Memory.read (Memory.cellsAt cells ks) a = Memory.unlisted := by
  induction ks with
  | nil => rfl
  | cons k ks ih =>
    have ih' := ih fun q hq => h q (by simp [hq])
    have hk := h k (by simp)
    rw [Memory.cellsAt_cons]
    split
    · exact ih'
    · simp [Memory.read, hk, ih']

theorem Memory.cellsAt_read (cells : Vector Byte 256) (ks : List (Fin 256)) (hn : ks.Nodup) (k : Fin 256)
    (hk : k ∈ ks) (a : Byte) (ha : a.toNat = k.val) : Memory.read (Memory.cellsAt cells ks) a = cells[k] := by
  induction ks with
  | nil => simp at hk
  | cons q ks ih =>
    obtain ⟨hq, hn'⟩ := List.nodup_cons.1 hn
    rw [Memory.cellsAt_cons]
    by_cases hkq : k = q
    · subst hkq
      split
      · rename_i hu
        rw [Memory.cellsAt_read_absent cells ks a, hu]
        intro p hp e
        exact hq (Fin.ext (e.trans ha) ▸ hp)
      · simp [Memory.read, ha]
    · have hmem : k ∈ ks := (List.mem_cons.1 hk).resolve_left hkq
      have hval : q.val ≠ a.toNat := fun e => hkq (Fin.ext (ha.symm.trans e.symm))
      split
      · exact ih hn' hmem
      · simp [Memory.read, hval, ih hn' hmem]

/-- The memory made of `cells` holds `cells[k]` at address k. -/
theorem Memory.ofCells_read (cells : Vector Byte 256) (k : Fin 256) :
    Memory.read (Memory.ofCells cells) (BitVec.ofNat 8 k.val) = cells[k] :=
  Memory.cellsAt_read cells (List.finRange 256) (List.nodup_finRange 256) k (List.mem_finRange k) _
    (by simp)

theorem Memory.ofCells_wf (cells : Vector Byte 256) : Memory.wf (Memory.ofCells cells) := by
  refine ⟨?_, ?_⟩
  · refine List.Pairwise.filterMap _ ?_ (List.pairwise_lt_finRange 256)
    intro i j hij c hc d hd
    simp only [Option.ite_none_left_eq_some, Option.some.injEq] at hc hd
    obtain ⟨-, rfl⟩ := hc
    obtain ⟨-, rfl⟩ := hd
    exact hij
  · intro c hc
    obtain ⟨k, -, hk⟩ := List.mem_filterMap.1 hc
    simp only [Option.ite_none_left_eq_some, Option.some.injEq] at hk
    obtain ⟨hne, rfl⟩ := hk
    exact ⟨k.isLt, hne⟩

end Sys2Proof.Machine
end

