-- ==== Sys2Proof/Laws/Ops.lean ====
section
/-! SUPPORT. What each shared operation can do: where it goes on, where it stops, and that it answers nothing else. -/

namespace Sys2Proof.Machine

/-! ## Register indices -/

theorem regIndex_of_lt {i : Byte} (h : i.toNat < 8) : regIndex i = some ⟨i.toNat, h⟩ := by
  simp [regIndex, h]

theorem regIndex_of_ge {i : Byte} (h : 8 ≤ i.toNat) : regIndex i = none := by
  simp [regIndex, Nat.not_lt.2 h]

theorem regIndex_eq_some {i : Byte} {r : Fin 8} : regIndex i = some r ↔ i.toNat = r.val := by
  constructor
  · intro h
    unfold regIndex at h
    split at h
    · rw [← Option.some.inj h]
    · cases h
  · intro h
    rw [regIndex_of_lt (i := i) (by omega)]
    exact congrArg some (Fin.ext h)

/-- A read of a register that exists goes on with its byte. -/
theorem State.readReg_of_lt (s : State) {i : Byte} (h : i.toNat < 8) (cont : Byte → Result) :
    s.readReg i cont = cont (s.reg ⟨i.toNat, h⟩) := by
  simp [State.readReg, regIndex_of_lt h]

/-- A read of any other register stops, and only `run` changes. -/
theorem State.readReg_of_ge (s : State) {i : Byte} (h : 8 ≤ i.toNat) (cont : Byte → Result) :
    s.readReg i cont = .next (s.setRun (.guestUB .badRegisterIndex)) := by
  simp [State.readReg, regIndex_of_ge h, State.raiseGuestUB, State.raise]

theorem State.writeReg_of_lt (s : State) {i : Byte} (h : i.toNat < 8) (v : Byte) (cont : State → Result) :
    s.writeReg i v cont = cont (s.setReg ⟨i.toNat, h⟩ v) := by
  simp [State.writeReg, regIndex_of_lt h]

theorem State.writeReg_of_ge (s : State) {i : Byte} (h : 8 ≤ i.toNat) (v : Byte) (cont : State → Result) :
    s.writeReg i v cont = .next (s.setRun (.guestUB .badRegisterIndex)) := by
  simp [State.writeReg, regIndex_of_ge h, State.raiseGuestUB, State.raise]

/-- Everything a register read can do. -/
theorem State.readReg_cases (s : State) (i : Byte) (cont : Byte → Result) :
    (∃ h : i.toNat < 8, s.readReg i cont = cont (s.reg ⟨i.toNat, h⟩)) ∨
      (8 ≤ i.toNat ∧ s.readReg i cont = .next (s.setRun (.guestUB .badRegisterIndex))) := by
  rcases Nat.lt_or_ge i.toNat 8 with h | h
  · exact .inl ⟨h, s.readReg_of_lt h cont⟩
  · exact .inr ⟨h, s.readReg_of_ge h cont⟩

/-- Everything a register write can do. -/
theorem State.writeReg_cases (s : State) (i v : Byte) (cont : State → Result) :
    (∃ h : i.toNat < 8, s.writeReg i v cont = cont (s.setReg ⟨i.toNat, h⟩ v)) ∨
      (8 ≤ i.toNat ∧ s.writeReg i v cont = .next (s.setRun (.guestUB .badRegisterIndex))) := by
  rcases Nat.lt_or_ge i.toNat 8 with h | h
  · exact .inl ⟨h, s.writeReg_of_lt h v cont⟩
  · exact .inr ⟨h, s.writeReg_of_ge h v cont⟩

theorem State.readRegs_of_lt (s : State) {a b : Byte} (ha : a.toNat < 8) (hb : b.toNat < 8)
    (cont : Byte → Byte → Result) :
    s.readRegs a b cont = cont (s.reg ⟨a.toNat, ha⟩) (s.reg ⟨b.toNat, hb⟩) := by
  simp [State.readRegs, s.readReg_of_lt ha, s.readReg_of_lt hb]

theorem State.readRegs_of_ge (s : State) {a b : Byte} (h : 8 ≤ a.toNat ∨ 8 ≤ b.toNat)
    (cont : Byte → Byte → Result) :
    s.readRegs a b cont = .next (s.setRun (.guestUB .badRegisterIndex)) := by
  unfold State.readRegs
  rcases s.readReg_cases a (fun va => s.readReg b fun vb => cont va vb) with ⟨ha, e⟩ | ⟨-, e⟩
  · rw [e, s.readReg_of_ge (h.resolve_left (Nat.not_le.2 ha))]
  · exact e

/-- Everything a read of two registers can do. -/
theorem State.readRegs_cases (s : State) (a b : Byte) (cont : Byte → Byte → Result) :
    (∃ (ha : a.toNat < 8) (hb : b.toNat < 8),
        s.readRegs a b cont = cont (s.reg ⟨a.toNat, ha⟩) (s.reg ⟨b.toNat, hb⟩)) ∨
      ((8 ≤ a.toNat ∨ 8 ≤ b.toNat) ∧
        s.readRegs a b cont = .next (s.setRun (.guestUB .badRegisterIndex))) := by
  rcases Nat.lt_or_ge a.toNat 8 with ha | ha
  · rcases Nat.lt_or_ge b.toNat 8 with hb | hb
    · exact .inl ⟨ha, hb, s.readRegs_of_lt ha hb cont⟩
    · exact .inr ⟨.inr hb, s.readRegs_of_ge (.inr hb) cont⟩
  · exact .inr ⟨.inl ha, s.readRegs_of_ge (.inl ha) cont⟩

/-- Everything the two-operand ALU form can do. -/
theorem State.aluBinary_cases (s : State) (f : Byte → Byte → Byte) (a b : Byte) :
    (∃ (ha : a.toNat < 8) (hb : b.toNat < 8), s.aluBinary f a b =
        .next (s.setReg ⟨a.toNat, ha⟩ (f (s.reg ⟨a.toNat, ha⟩) (s.reg ⟨b.toNat, hb⟩)))) ∨
      ((8 ≤ a.toNat ∨ 8 ≤ b.toNat) ∧
        s.aluBinary f a b = .next (s.setRun (.guestUB .badRegisterIndex))) := by
  unfold State.aluBinary
  rcases s.readRegs_cases a b (fun va vb => s.writeReg a (f va vb) .next) with ⟨ha, hb, e⟩ | ⟨h, e⟩
  · exact .inl ⟨ha, hb, by rw [e, s.writeReg_of_lt ha]⟩
  · exact .inr ⟨h, e⟩

/-- Everything a jump through a register can do. -/
theorem State.jumpToReg_cases (s : State) (a : Byte) :
    (∃ h : a.toNat < 8, s.jumpToReg a = .next (s.setPc (s.reg ⟨a.toNat, h⟩))) ∨
      (8 ≤ a.toNat ∧ s.jumpToReg a = .next (s.setRun (.guestUB .badRegisterIndex))) :=
  s.readReg_cases a _

/-! ## Address arithmetic -/

/-- Under `wrap` the sum is taken modulo 256. -/
theorem wrapadd_wrap (a : Byte) (k : Int) : wrapadd .wrap a k = some (a + BitVec.ofInt 8 k) := by
  simp [wrapadd, BitVec.ofInt_add, BitVec.ofInt_natCast]

/-- Under `fault` a sum inside 0..255 is the same byte. -/
theorem wrapadd_fault_of_in {a : Byte} {k : Int} (h : 0 ≤ (a.toNat : Int) + k ∧ (a.toNat : Int) + k ≤ 255) :
    wrapadd .fault a k = some (a + BitVec.ofInt 8 k) := by
  simp [wrapadd, h, BitVec.ofInt_add, BitVec.ofInt_natCast]

theorem wrapadd_fault_of_out {a : Byte} {k : Int} (h : ¬(0 ≤ (a.toNat : Int) + k ∧ (a.toNat : Int) + k ≤ 255)) :
    wrapadd .fault a k = none := by
  simp [wrapadd, h]

/-- Where `wrapadd` answers, it answers the sum modulo 256, under either policy. -/
theorem wrapadd_eq_some {policy : WrapPolicy} {a v : Byte} {k : Int} (h : wrapadd policy a k = some v) :
    v = a + BitVec.ofInt 8 k := by
  cases policy with
  | wrap => rw [wrapadd_wrap] at h; exact (Option.some.inj h).symm
  | fault =>
    by_cases hin : 0 ≤ (a.toNat : Int) + k ∧ (a.toNat : Int) + k ≤ 255
    · rw [wrapadd_fault_of_in hin] at h; exact (Option.some.inj h).symm
    · rw [wrapadd_fault_of_out hin] at h; cases h

/-- `wrapadd` fails only under `fault`. -/
theorem wrapadd_eq_none {policy : WrapPolicy} {a : Byte} {k : Int} (h : wrapadd policy a k = none) :
    policy = .fault ∧ ¬(0 ≤ (a.toNat : Int) + k ∧ (a.toNat : Int) + k ≤ 255) := by
  cases policy with
  | wrap => rw [wrapadd_wrap] at h; cases h
  | fault =>
    refine ⟨rfl, fun hin => ?_⟩
    rw [wrapadd_fault_of_in hin] at h
    cases h

/-- Where the sum may be taken, the operation goes on with it. -/
theorem State.withWrapadd_of_ok (s : State) {a : Byte} {k : Int} (cont : Byte → Result)
    (h : s.wrapPolicy = .wrap ∨ (0 ≤ (a.toNat : Int) + k ∧ (a.toNat : Int) + k ≤ 255)) :
    s.withWrapadd a k cont = cont (a + BitVec.ofInt 8 k) := by
  unfold State.withWrapadd
  cases hp : s.wrapPolicy with
  | wrap => rw [wrapadd_wrap]
  | fault => rw [wrapadd_fault_of_in (h.resolve_left (by simp [hp]))]

theorem State.withWrapadd_of_out (s : State) {a : Byte} {k : Int} (cont : Byte → Result)
    (hp : s.wrapPolicy = .fault) (h : ¬(0 ≤ (a.toNat : Int) + k ∧ (a.toNat : Int) + k ≤ 255)) :
    s.withWrapadd a k cont = .next (s.setRun (.guestUB .addressOutOfRange)) := by
  simp [State.withWrapadd, hp, wrapadd_fault_of_out h, State.raiseGuestUB, State.raise]

/-- Everything address arithmetic can do. -/
theorem State.withWrapadd_cases (s : State) (a : Byte) (k : Int) (cont : Byte → Result) :
    s.withWrapadd a k cont = cont (a + BitVec.ofInt 8 k) ∨
      (s.wrapPolicy = .fault ∧ s.withWrapadd a k cont = .next (s.setRun (.guestUB .addressOutOfRange))) := by
  unfold State.withWrapadd
  cases h : wrapadd s.wrapPolicy a k with
  | some v => exact .inl (congrArg cont (wrapadd_eq_some h))
  | none => exact .inr ⟨(wrapadd_eq_none h).1, rfl⟩

/-- Everything a move of the stack pointer can do. -/
theorem State.moveSp_cases (s : State) (k : Int) (cont : State → Result) :
    s.moveSp k cont = cont (s.setReg spIndex (s.sp + BitVec.ofInt 8 k)) ∨
      (s.wrapPolicy = .fault ∧ s.moveSp k cont = .next (s.setRun (.guestUB .addressOutOfRange))) :=
  s.withWrapadd_cases s.sp k _

/-- Everything a branch that is not taken can do. -/
theorem State.fallThrough_cases (s : State) :
    s.fallThrough = .next (s.setPc (s.pc + 2#8)) ∨
      (s.wrapPolicy = .fault ∧ s.fallThrough = .next (s.setRun (.guestUB .addressOutOfRange))) :=
  s.withWrapadd_cases s.pc 2 _

/-! ## The sequencer's operations -/

/-- A fetch that answers gives the bytes at pc, pc+1 and pc+2, modulo 256. -/
theorem State.fetch?_eq_some {s : State} {l : Latch} (h : s.fetch? = some l) :
    l = ⟨s.memRead s.pc, s.memRead (s.pc + 1#8), s.memRead (s.pc + 2#8)⟩ := by
  unfold State.fetch? at h
  cases h1 : wrapadd s.wrapPolicy s.pc 1 with
  | none => rw [h1] at h; cases h
  | some p =>
    cases h2 : wrapadd s.wrapPolicy s.pc 2 with
    | none => rw [h1, h2] at h; cases h
    | some q =>
      rw [h1, h2] at h
      rw [wrapadd_eq_some h1, wrapadd_eq_some h2] at h
      exact (Option.some.inj h).symm

/-- A fetch fails only under `fault`. -/
theorem State.fetch?_eq_none {s : State} (h : s.fetch? = none) : s.wrapPolicy = .fault := by
  unfold State.fetch? at h
  cases h1 : wrapadd s.wrapPolicy s.pc 1 with
  | none => exact (wrapadd_eq_none h1).1
  | some p =>
    cases h2 : wrapadd s.wrapPolicy s.pc 2 with
    | none => exact (wrapadd_eq_none h2).1
    | some q => rw [h1, h2] at h; cases h

/-- Everything the PC advance can do. -/
theorem State.advance_cases (s : State) (op : Byte) :
    (s.run = .running ∧ opPcSet op = false ∧
        s.advance op = .next (s.setPc (s.pc + BitVec.ofInt 8 (insnLength op)))) ∨
      (s.run = .running ∧ opPcSet op = false ∧ s.wrapPolicy = .fault ∧
        s.advance op = .next (s.setRun (.guestUB .addressOutOfRange))) ∨
      ((s.run ≠ .running ∨ opPcSet op = true) ∧ s.advance op = .next s) := by
  unfold State.advance
  split
  · rename_i h
    rcases s.withWrapadd_cases s.pc (insnLength op) (fun pc' => .next (s.setPc pc')) with e | ⟨hp, e⟩
    · exact .inl ⟨h.1, h.2, e⟩
    · exact .inr (.inl ⟨h.1, h.2, hp, e⟩)
  · rename_i h
    refine .inr (.inr ⟨?_, rfl⟩)
    by_cases hr : s.run = .running
    · exact .inr (by simpa [hr] using h)
    · exact .inl hr

end Sys2Proof.Machine
end

