-- ==== Sys2Proof/Laws/PerInstr.lean ====
section
/-! SUPPORT. Facts about every instruction as syntax, one lemma per constructor (LAWS.json, "per_instruction"). -/

namespace Sys2Proof.Laws.FieldBits

/-- Whether the spec lists the instruction with B = 1, and with C = 1 (30_encoding.md R81). -/
def expected : Instr → Bool × Bool
  | .add _ _ => (true, false)
  | .mul _ _ => (true, false)
  | .and _ _ => (true, false)
  | .or _ _ => (true, false)
  | .xor _ _ => (true, false)
  | .cmp _ _ => (true, false)
  | .jmp _ => (false, true)
  | .jeq _ => (false, true)
  | .jne _ => (false, true)
  | .call _ => (false, true)
  | .ret => (false, true)
  | .ldi _ _ => (false, false)
  | .st _ _ => (false, false)
  | .push _ => (false, false)
  | .pop _ => (false, false)
  | .prn _ => (false, false)
  | .hlt => (false, false)

/-- The opcode byte's bits 5 and 4 are those the spec forces (30_encoding.md R81). -/
def Statement (i : Instr) : Prop :=
  ∀ op rest, encode i = op :: rest → (opAlu op, opPcSet op) = expected i

theorem of_head {i : Instr} {op : Byte} {rest : List Byte} (he : encode i = op :: rest)
    (h : (opAlu op, opPcSet op) = expected i) : Statement i := by
  intro op' rest' he'
  rw [he] at he'
  rw [← (List.cons.inj he').1]
  exact h

theorem add (a b : Byte) : Statement (.add a b) := of_head rfl rfl
theorem mul (a b : Byte) : Statement (.mul a b) := of_head rfl rfl
theorem and (a b : Byte) : Statement (.and a b) := of_head rfl rfl
theorem or (a b : Byte) : Statement (.or a b) := of_head rfl rfl
theorem xor (a b : Byte) : Statement (.xor a b) := of_head rfl rfl
theorem cmp (a b : Byte) : Statement (.cmp a b) := of_head rfl rfl
theorem jmp (a : Byte) : Statement (.jmp a) := of_head rfl rfl
theorem jeq (a : Byte) : Statement (.jeq a) := of_head rfl rfl
theorem jne (a : Byte) : Statement (.jne a) := of_head rfl rfl
theorem call (a : Byte) : Statement (.call a) := of_head rfl rfl
theorem ret : Statement .ret := of_head rfl rfl
theorem ldi (a b : Byte) : Statement (.ldi a b) := of_head rfl rfl
theorem st (a b : Byte) : Statement (.st a b) := of_head rfl rfl
theorem push (a : Byte) : Statement (.push a) := of_head rfl rfl
theorem pop (a : Byte) : Statement (.pop a) := of_head rfl rfl
theorem prn (a : Byte) : Statement (.prn a) := of_head rfl rfl
theorem hlt : Statement .hlt := of_head rfl rfl

end Sys2Proof.Laws.FieldBits
end

