-- ==== Sys2Proof/Laws/Step.lean ====
section
/-! SUPPORT. What one step can do, said once: the decoder's answers, the handlers' outcomes, and the inversion of step. -/

namespace Sys2Proof.Machine

/-- What the lookup finds stands in the table under that opcode. -/
theorem mem_of_lookupOpcode {table : List (Byte × Former)} {op : Byte} {f : Former}
    (h : lookupOpcode table op = some f) : (op, f) ∈ table := by
  induction table with
  | nil => cases h
  | cons row rest ih =>
    unfold lookupOpcode at h
    split at h
    · rename_i he
      rw [← he, ← Option.some.inj h]
      exact List.mem_cons_self
    · exact List.mem_cons_of_mem _ (ih h)

/-- The decoder's answer is an instruction, or a miss that names the opcode it was given. -/
theorem decode_cases (l : Latch) :
    (∃ i, decode l = .instr i) ∨
      (opAlu l.op = false ∧ decode l = .unrecognizedInstruction l.op) ∨
      (opAlu l.op = true ∧ decode l = .unsupportedAluOpcode l.op) := by
  unfold decode
  cases hb : opAlu l.op with
  | true =>
    simp only [if_true]
    cases lookupOpcode aluTable l.op with
    | some f => exact .inl ⟨_, rfl⟩
    | none => exact .inr (.inr ⟨trivial, rfl⟩)
  | false =>
    simp only [Bool.false_eq_true, if_false]
    cases lookupOpcode generalTable l.op with
    | some f => exact .inl ⟨_, rfl⟩
    | none => exact .inr (.inl ⟨trivial, rfl⟩)

/-- A stack pointer move answers a next state if what follows it does. -/
theorem State.moveSp_next (s : State) (k : Int) (cont : State → Result) (h : ∀ u, ∃ t, cont u = .next t) :
    ∃ t, s.moveSp k cont = .next t := by
  rcases s.moveSp_cases k cont with e | ⟨-, e⟩
  · rw [e]; exact h _
  · exact ⟨_, e⟩

theorem State.readReg_next (s : State) (i : Byte) (cont : Byte → Result) (h : ∀ v, ∃ t, cont v = .next t) :
    ∃ t, s.readReg i cont = .next t := by
  rcases s.readReg_cases i cont with ⟨_, e⟩ | ⟨-, e⟩
  · rw [e]; exact h _
  · exact ⟨_, e⟩

theorem State.readRegs_next (s : State) (a b : Byte) (cont : Byte → Byte → Result)
    (h : ∀ v w, ∃ t, cont v w = .next t) : ∃ t, s.readRegs a b cont = .next t :=
  s.readReg_next a _ fun v => s.readReg_next b _ fun w => h v w

theorem State.writeReg_next (s : State) (i v : Byte) (cont : State → Result) (h : ∀ u, ∃ t, cont u = .next t) :
    ∃ t, s.writeReg i v cont = .next t := by
  rcases s.writeReg_cases i v cont with ⟨_, e⟩ | ⟨-, e⟩
  · rw [e]; exact h _
  · exact ⟨_, e⟩

theorem State.withWrapadd_next (s : State) (a : Byte) (k : Int) (cont : Byte → Result)
    (h : ∀ v, ∃ t, cont v = .next t) : ∃ t, s.withWrapadd a k cont = .next t := by
  rcases s.withWrapadd_cases a k cont with e | ⟨-, e⟩
  · rw [e]; exact h _
  · exact ⟨_, e⟩

theorem State.jumpToReg_next (s : State) (a : Byte) : ∃ t, s.jumpToReg a = .next t :=
  s.readReg_next a _ fun _ => ⟨_, rfl⟩

theorem State.fallThrough_next (s : State) : ∃ t, s.fallThrough = .next t :=
  s.withWrapadd_next s.pc 2 _ fun _ => ⟨_, rfl⟩

theorem State.aluBinary_next (s : State) (f : Byte → Byte → Byte) (a b : Byte) :
    ∃ t, s.aluBinary f a b = .next t :=
  s.readRegs_next a b _ fun _ _ => s.writeReg_next a _ _ fun _ => ⟨_, rfl⟩

theorem State.advance_next (s : State) (op : Byte) : ∃ t, s.advance op = .next t := by
  rcases s.advance_cases op with ⟨-, -, e⟩ | ⟨-, -, -, e⟩ | ⟨-, e⟩ <;> exact ⟨_, e⟩

/-- Every handler answers a next state: its effect, or the stop it raises, recorded in `run`. -/
theorem exec_next (i : Instr) (s : State) : ∃ t, exec i s = .next t := by
  cases i with
  | add a b => exact s.aluBinary_next _ a b
  | mul a b => exact s.aluBinary_next _ a b
  | and a b => exact s.aluBinary_next _ a b
  | or a b => exact s.aluBinary_next _ a b
  | xor a b => exact s.aluBinary_next _ a b
  | cmp a b => exact s.readRegs_next a b _ fun v w => ⟨s.setFl (compareFlags v w), rfl⟩
  | jmp a => exact s.jumpToReg_next a
  | jeq a =>
    simp only [exec, execJeq]
    split
    · exact s.jumpToReg_next a
    · exact s.fallThrough_next
  | jne a =>
    simp only [exec, execJne]
    split
    · exact s.fallThrough_next
    · exact s.jumpToReg_next a
  | call a => exact s.withWrapadd_next _ _ _ fun _ => s.moveSp_next _ _ fun u => State.jumpToReg_next _ a
  | ret => exact s.moveSp_next 1 _ fun u => ⟨u.setPc s.stackTop, rfl⟩
  | ldi a b => exact s.writeReg_next a b _ fun _ => ⟨_, rfl⟩
  | st a b => exact s.readRegs_next a b _ fun _ _ => ⟨_, rfl⟩
  | push a => exact s.moveSp_next _ _ fun u => u.readReg_next a _ fun _ => ⟨_, rfl⟩
  | pop a => exact s.writeReg_next a s.stackTop _ fun u => u.moveSp_next 1 .next fun v => ⟨v, rfl⟩
  | prn a => exact s.readReg_next a _ fun _ => ⟨_, rfl⟩
  | hlt => exact ⟨_, rfl⟩

/-- Everything a step can do: nothing when stopped, a stop in fetch, a decode error, or a handler and the advance. -/
theorem step_cases (s : State) :
    (s.run ≠ .running ∧ step s = .next s) ∨
      (s.run = .running ∧ s.fetch? = none ∧ step s = .next (s.setRun (.guestUB .addressOutOfRange))) ∨
      (∃ l, s.run = .running ∧ s.fetch? = some l ∧ (decode l).instr? = none ∧
        step s = .next (s.setRun (.decodeError l.op s.pc))) ∨
      (∃ l i t, s.run = .running ∧ s.fetch? = some l ∧ decode l = .instr i ∧ exec i s = .next t ∧
        step s = t.advance l.op) := by
  by_cases hr : s.run = .running
  · unfold step State.withFetch
    rw [if_pos hr]
    cases hf : s.fetch? with
    | none => exact .inr (.inl ⟨hr, rfl, rfl⟩)
    | some l =>
      simp only []
      rcases decode_cases l with ⟨i, hd⟩ | ⟨-, hd⟩ | ⟨-, hd⟩
      · obtain ⟨t, ht⟩ := exec_next i s
        exact .inr (.inr (.inr ⟨l, i, t, hr, rfl, hd, ht, by simp only [hd, ht, advanceAfter]⟩))
      · exact .inr (.inr (.inl ⟨l, hr, rfl, by rw [hd]; rfl, by simp only [hd]; rfl⟩))
      · exact .inr (.inr (.inl ⟨l, hr, rfl, by rw [hd]; rfl, by simp only [hd]; rfl⟩))
  · exact .inl ⟨hr, by simp [step, hr]⟩

end Sys2Proof.Machine
end

