-- ==== Sys2Proof/Tests/Slice0.lean ====
section
/-! SUPPORT. The package's own tests: the WellFormed smoke tests, words decoded bit by bit, single steps with results taken
from spec/95_test_vectors.md (the vector is named at each), and for each statement with hypotheses a witness that meets
them, clause by clause. -/

namespace Sys2Proof.Tests

open Sys2Proof Sys2Proof.Machine

/-! ## Helpers -/

/-- The next state, if there is one. -/
def after (r : Result) : Option State :=
  match r with
  | .next t => some t
  | .fault _ => none
  | .refused _ => none

theorem next_of_after {r : Result} {t : State} (h : after r = some t) : r = .next t := by
  cases r with
  | next u => rw [Option.some.inj h]
  | fault f => cases f
  | refused f => cases h

/-- The reset state with pc and these bytes at pc. -/
def start (pc : Byte) (bytes : List Byte) : State := (State.reset.setPc pc).loadFrom pc bytes

/-- The same under the `fault` policy. -/
def startFault (pc : Byte) (bytes : List Byte) : State := { start pc bytes with wrapPolicy := .fault }

/-! ## WellFormed refuses each bad register operand (10_state.md R24) -/

theorem test_add_bad_operands : ¬Instr.WellFormed (.add 8#8 0#8) ∧ ¬Instr.WellFormed (.add 0#8 255#8) := by decide
theorem test_mul_bad_operands : ¬Instr.WellFormed (.mul 8#8 0#8) ∧ ¬Instr.WellFormed (.mul 0#8 255#8) := by decide
theorem test_and_bad_operands : ¬Instr.WellFormed (.and 8#8 0#8) ∧ ¬Instr.WellFormed (.and 0#8 255#8) := by decide
theorem test_or_bad_operands : ¬Instr.WellFormed (.or 8#8 0#8) ∧ ¬Instr.WellFormed (.or 0#8 255#8) := by decide
theorem test_xor_bad_operands : ¬Instr.WellFormed (.xor 8#8 0#8) ∧ ¬Instr.WellFormed (.xor 0#8 255#8) := by decide
theorem test_cmp_bad_operands : ¬Instr.WellFormed (.cmp 8#8 0#8) ∧ ¬Instr.WellFormed (.cmp 0#8 255#8) := by decide
theorem test_st_bad_operands : ¬Instr.WellFormed (.st 8#8 0#8) ∧ ¬Instr.WellFormed (.st 0#8 255#8) := by decide
theorem test_jmp_bad_operand : ¬Instr.WellFormed (.jmp 8#8) := by decide
theorem test_jeq_bad_operand : ¬Instr.WellFormed (.jeq 8#8) := by decide
theorem test_jne_bad_operand : ¬Instr.WellFormed (.jne 8#8) := by decide
theorem test_call_bad_operand : ¬Instr.WellFormed (.call 8#8) := by decide
theorem test_push_bad_operand : ¬Instr.WellFormed (.push 8#8) := by decide
theorem test_pop_bad_operand : ¬Instr.WellFormed (.pop 8#8) := by decide
theorem test_prn_bad_operand : ¬Instr.WellFormed (.prn 8#8) := by decide
theorem test_ldi_bad_operand : ¬Instr.WellFormed (.ldi 8#8 0#8) ∧ Instr.WellFormed (.ldi 7#8 255#8) := by decide

/-! ## Words written out from 30_encoding.md R80, with unused bytes set to show that they are ignored -/

theorem test_decode_add : decode ⟨0b10100000#8, 0b00000101#8, 0b00000110#8⟩ = .instr (.add 5#8 6#8) := by decide
theorem test_decode_mul : decode ⟨0b10100010#8, 0b00000101#8, 0b00000110#8⟩ = .instr (.mul 5#8 6#8) := by decide
theorem test_decode_and : decode ⟨0b10101000#8, 0b00000101#8, 0b00000110#8⟩ = .instr (.and 5#8 6#8) := by decide
theorem test_decode_or : decode ⟨0b10101010#8, 0b00000101#8, 0b00000110#8⟩ = .instr (.or 5#8 6#8) := by decide
theorem test_decode_xor : decode ⟨0b10101011#8, 0b00000101#8, 0b00000110#8⟩ = .instr (.xor 5#8 6#8) := by decide
theorem test_decode_cmp : decode ⟨0b10100111#8, 0b00000101#8, 0b00000110#8⟩ = .instr (.cmp 5#8 6#8) := by decide
theorem test_decode_jmp : decode ⟨0b01010100#8, 0b00000101#8, 0b00000110#8⟩ = .instr (.jmp 5#8) := by decide
theorem test_decode_jeq : decode ⟨0b01010101#8, 0b00000101#8, 0b00000110#8⟩ = .instr (.jeq 5#8) := by decide
theorem test_decode_jne : decode ⟨0b01010110#8, 0b00000101#8, 0b00000110#8⟩ = .instr (.jne 5#8) := by decide
theorem test_decode_call : decode ⟨0b01010000#8, 0b00000101#8, 0b00000110#8⟩ = .instr (.call 5#8) := by decide
theorem test_decode_ret : decode ⟨0b00010001#8, 0b00000101#8, 0b00000110#8⟩ = .instr .ret := by decide
theorem test_decode_ldi : decode ⟨0b10000010#8, 0b00000101#8, 0b00000110#8⟩ = .instr (.ldi 5#8 6#8) := by decide
theorem test_decode_st : decode ⟨0b10000100#8, 0b00000101#8, 0b00000110#8⟩ = .instr (.st 5#8 6#8) := by decide
theorem test_decode_push : decode ⟨0b01000101#8, 0b00000101#8, 0b00000110#8⟩ = .instr (.push 5#8) := by decide
theorem test_decode_pop : decode ⟨0b01000110#8, 0b00000101#8, 0b00000110#8⟩ = .instr (.pop 5#8) := by decide
theorem test_decode_prn : decode ⟨0b01000111#8, 0b00000101#8, 0b00000110#8⟩ = .instr (.prn 5#8) := by decide
theorem test_decode_hlt : decode ⟨0b00000001#8, 0b00000101#8, 0b00000110#8⟩ = .instr .hlt := by decide

/-- Bit numbering of the table: the first byte is bits 7..0, the second 15..8, the third 23..16. -/
theorem test_table_word : decodeTableWord 24 0x0201A0 = some (.add 1#8 2#8) ∧ decodeTableWord 16 0x0354 = some (.jmp 3#8) ∧
    decodeTableWord 8 0x11 = some .ret ∧ decodeTableWord 8 0xA1 = none := by decide

/-- A word placed for the fetch runs as the first instruction after reset: LDI R2,0x2A. -/
theorem test_withFetchWord : (after (step (State.reset.withFetchWord 24 0x2A0282))).map (fun t => (t.reg 2, t.pc)) =
    some (0x2A#8, 3#8) := by decide

/-! ## Single steps (spec/95_test_vectors.md, Part 2) -/

/-- A2 -/
theorem test_add_wraps :
    (after (step (((start 0x00#8 [0xA0#8, 0x00#8, 0x01#8]).setReg 0 200#8).setReg 1 100#8))).map (fun t => (t.reg 0, t.pc)) = some (44#8, 0x03#8) := by decide

/-- A20 -/
theorem test_add_second_index_bad :
    (after (step (start 0x00#8 [0xA0#8, 0x00#8, 0x09#8]))).map (fun t => (t.run, t.pc, t.reg 0)) = some (.guestUB .badRegisterIndex, 0x00#8, 0x00#8) := by decide

/-- A8 -/
theorem test_mul_low_byte :
    (after (step ((start 0x00#8 [0xA2#8, 0x02#8, 0x02#8]).setReg 2 0xFF#8))).map (fun t => (t.reg 2, t.pc)) = some (0x01#8, 0x03#8) := by decide

/-- A10 -/
theorem test_and :
    (after (step (((start 0x00#8 [0xA8#8, 0x00#8, 0x01#8]).setReg 0 0xF0#8).setReg 1 0x3C#8))).map (fun t => (t.reg 0, t.reg 1)) = some (0x30#8, 0x3C#8) := by decide

/-- A11 -/
theorem test_or :
    (after (step (((start 0x00#8 [0xAA#8, 0x00#8, 0x01#8]).setReg 0 0xF0#8).setReg 1 0x0F#8))).map (fun t => (t.reg 0, t.reg 1)) = some (0xFF#8, 0x0F#8) := by decide

/-- A12 -/
theorem test_xor :
    (after (step (((start 0x00#8 [0xAB#8, 0x04#8, 0x05#8]).setReg 4 0xFF#8).setReg 5 0x0F#8))).map (fun t => (t.reg 4, t.reg 5)) = some (0xF0#8, 0x0F#8) := by decide

/-- A17 -/
theorem test_cmp_unsigned :
    (after (step (((start 0x00#8 [0xA7#8, 0x00#8, 0x01#8]).setReg 0 0xFF#8).setReg 1 0x01#8))).map (fun t => (t.fl, t.reg 0, t.reg 1)) = some (0x02#8, 0xFF#8, 0x01#8) := by decide

/-- A16 -/
theorem test_cmp_less :
    (after (step (((start 0x00#8 [0xA7#8, 0x00#8, 0x01#8]).setReg 0 3#8).setReg 1 7#8))).map (fun t => (t.fl, t.pc)) = some (0x04#8, 0x03#8) := by decide

/-- C1 -/
theorem test_jmp :
    (after (step ((start 0x05#8 [0x54#8, 0x01#8]).setReg 1 0x10#8))).map (fun t => t.pc) = some (0x10#8) := by decide

/-- C3 -/
theorem test_jeq_taken :
    (after (step (((start 0x08#8 [0x55#8, 0x02#8]).setReg 2 0x20#8).setFl 0x01#8))).map (fun t => t.pc) = some (0x20#8) := by decide

/-- C9 -/
theorem test_jeq_not_taken_ignores_index :
    (after (step ((start 0x08#8 [0x55#8, 0x09#8]).setFl 0x04#8))).map (fun t => (t.pc, t.run)) = some (0x0A#8, .running) := by decide

/-- C6 -/
theorem test_jne_taken :
    (after (step (((start 0x08#8 [0x56#8, 0x02#8]).setReg 2 0x20#8).setFl 0x02#8))).map (fun t => t.pc) = some (0x20#8) := by decide

/-- C7 -/
theorem test_jne_not_taken :
    (after (step (((start 0x08#8 [0x56#8, 0x02#8]).setReg 2 0x20#8).setFl 0x01#8))).map (fun t => t.pc) = some (0x0A#8) := by decide

/-- C13 -/
theorem test_call_r7 :
    (after (step (start 0x10#8 [0x50#8, 0x07#8]))).map (fun t => (t.memRead 0xF3#8, t.sp, t.pc)) = some (0x12#8, 0xF3#8, 0xF3#8) := by decide

/-- C14 -/
theorem test_call_wraps :
    (after (step (((start 0x10#8 [0x50#8, 0x01#8]).setReg 7 0x00#8).setReg 1 0x30#8))).map (fun t => (t.memRead 0xFF#8, t.sp, t.pc)) = some (0x12#8, 0xFF#8, 0x30#8) := by decide

/-- C16 -/
theorem test_ret_wraps :
    (after (step (((start 0x30#8 [0x11#8]).setReg 7 0xFF#8).memWrite 0xFF#8 0x40#8))).map (fun t => (t.pc, t.sp)) = some (0x40#8, 0x00#8) := by decide

/-- 42_control.md R145 and 40_cycle.md R107: under `fault` with SP = 255 the stop keeps the RET's address. -/
theorem test_ret_stops_under_fault :
    (after (step (((startFault 0x30#8 [0x11#8]).setReg 7 0xFF#8).memWrite 0xFF#8 0x40#8))).map (fun t =>
      (t.run, t.pc, t.sp)) = some (.guestUB .addressOutOfRange, 0x30#8, 0xFF#8) := by decide

/-- S6 of section 2.4 -/
theorem test_ldi_across_the_wrap :
    (after (step (start 0xFE#8 [0x82#8, 0x00#8, 0x07#8]))).map (fun t => (t.reg 0, t.pc)) = some (7#8, 0x01#8) := by decide

/-- D3 -/
theorem test_ldi_bad_index :
    (after (step (start 0x00#8 [0x82#8, 0x08#8, 0x01#8]))).map (fun t => (t.run, t.pc)) = some (.guestUB .badRegisterIndex, 0x00#8) := by decide

/-- D4 -/
theorem test_st :
    (after (step (((start 0x00#8 [0x84#8, 0x00#8, 0x01#8]).setReg 0 0x80#8).setReg 1 0x2A#8))).map (fun t => (t.memRead 0x80#8, t.pc)) = some (0x2A#8, 0x03#8) := by decide

/-- D6 -/
theorem test_st_own_operand :
    (after (step (((start 0x00#8 [0x84#8, 0x00#8, 0x01#8]).setReg 0 0x01#8).setReg 1 0x02#8))).map (fun t => (t.memRead 0x01#8, t.memRead 0x02#8, t.pc)) = some (0x02#8, 0x01#8, 0x03#8) := by decide

/-- D8 -/
theorem test_push_r7 :
    (after (step (start 0x00#8 [0x45#8, 0x07#8]))).map (fun t => (t.sp, t.memRead 0xF3#8, t.pc)) = some (0xF3#8, 0xF3#8, 0x02#8) := by decide

/-- D9 -/
theorem test_push_stops_under_fault :
    (after (step ((startFault 0x00#8 [0x45#8, 0x00#8]).setReg 7 0x00#8))).map (fun t => (t.run, t.sp, t.mem)) = some (.guestUB .addressOutOfRange, 0x00#8, [(0, 0x45#8)]) := by decide

/-- D10 -/
theorem test_pop :
    (after (step (((start 0x00#8 [0x46#8, 0x01#8]).setReg 7 0xF3#8).memWrite 0xF3#8 0x2A#8))).map (fun t => (t.reg 1, t.sp, t.memRead 0xF3#8)) = some (0x2A#8, 0xF4#8, 0x2A#8) := by decide

/-- D12 -/
theorem test_pop_r7 :
    (after (step (((start 0x00#8 [0x46#8, 0x07#8]).setReg 7 0xF3#8).memWrite 0xF3#8 0x50#8))).map (fun t => (t.sp, t.pc)) = some (0x51#8, 0x02#8) := by decide

/-- D13 -/
theorem test_prn :
    (after (step (((start 0x00#8 [0x47#8, 0x00#8]).setReg 0 17#8).emit 5#8))).map (fun t => (t.out, t.pc)) = some ([5#8, 17#8], 0x02#8) := by decide

/-- D15 -/
theorem test_hlt :
    (after (step (start 0x0B#8 [0x01#8]))).map (fun t => (t.run, t.pc)) = some (.haltedOk, 0x0B#8) := by decide

/-- S1 of section 2.4 -/
theorem test_decode_error_general :
    (after (step (start 0x00#8 [0x00#8]))).map (fun t => (t.run, t.pc)) = some (.decodeError 0x00#8 0x00#8, 0x00#8) := by decide

/-- S2 of section 2.4 -/
theorem test_decode_error_alu :
    (after (step (start 0x03#8 [0xA1#8, 0x00#8, 0x00#8]))).map (fun t => t.run) = some (.decodeError 0xA1#8 0x03#8) := by decide

/-- S5 of section 2.4 -/
theorem test_fetch_stops_under_fault :
    (after (step (startFault 0xFF#8 [0x01#8]))).map (fun t => (t.run, t.pc)) = some (.guestUB .addressOutOfRange, 0xFF#8) := by decide

/-- P5 of Part 3, third step: a store over the next instruction's opcode; the next fetch reads it as HLT. -/
theorem test_store_into_code :
    ((after (step (((start 0x06#8 [0x84#8, 0x01#8, 0x00#8, 0x47#8, 0x00#8]).setReg 0 0x01#8).setReg 1 0x09#8))).bind
      State.fetch?).map decode = some (.instr .hlt) := by decide

/-- An image of three bytes (P7 of Part 3) stands at address 0 after the load. -/
theorem test_load : (after (State.reset.loadImage [0x82#8, 0x08#8, 0x01#8])).map (fun t =>
    (t.memRead 0#8, t.memRead 1#8, t.memRead 2#8, t.memRead 3#8, t.sp)) =
    some (0x82#8, 0x08#8, 0x01#8, 0x00#8, 0xF4#8) := by decide

/-- 10_state.md R34 at reset. -/
theorem test_trace : (start 0xFF#8 [0x54#8, 0x03#8]).trace.op = 0x54#8 ∧ (start 0xFF#8 [0x54#8, 0x03#8]).trace.a = some 0x03#8 ∧
    (startFault 0xFF#8 [0x54#8]).trace.a = none := by decide

/-! ## Witnesses: concrete values that meet the hypotheses of each statement -/

/-- A state whose next instruction is ADD R0,R1. -/
def addState : State := start 0x00#8 [0xA0#8, 0x00#8, 0x01#8]

theorem witness_DecodeOfEncodeIsTheInstruction :
    encode .ret <+: [0x11#8, 0xFF#8, 0xFF#8] ∧ encode (.jmp 7#8) <+: [0x54#8, 7#8, 0xFF#8] ∧
    encode (.ldi 0#8 255#8) <+: [0x82#8, 0#8, 255#8] := by decide

theorem witness_EncodeOfDecodeIsTheBytes :
    decode ⟨0x11#8, 0xFF#8, 0xFF#8⟩ = .instr .ret ∧ decode ⟨0x82#8, 0#8, 255#8⟩ = .instr (.ldi 0#8 255#8) := by decide

theorem witness_LengthComesFromOperandCount :
    encode .hlt = 0x01#8 :: [] ∧ encode (.add 0#8 1#8) = 0xA0#8 :: [0#8, 1#8] ∧
    (0xC0#8 >>> 6).toNat = 3 ∧ (0xFF#8 >>> 6).toNat = 3 := by decide

theorem witness_OnlyTheSeventeenOpcodesDecode :
    (decode ⟨0x01#8, 0#8, 0#8⟩).instr? = some .hlt ∧ decode ⟨0xA1#8, 0#8, 0#8⟩ = .unsupportedAluOpcode 0xA1#8 ∧
    decode ⟨0xFF#8, 0#8, 0#8⟩ = .unsupportedAluOpcode 0xFF#8 ∧ decode ⟨0xC0#8, 0#8, 0#8⟩ = .unrecognizedInstruction 0xC0#8 := by
  decide

/-- Clauses of StepRunsTheDecodedInstruction: a handler that stops the core, a PC-setting one, an advance that wraps, one
that ends at 255 under `fault`, and one that passes it. -/
theorem witness_StepRunsTheDecodedInstruction :
    (∃ t, (start 0#8 [0x01#8]).run = .running ∧ (start 0#8 [0x01#8]).fetch? = some ⟨0x01#8, 0#8, 0#8⟩ ∧
      decode ⟨0x01#8, 0#8, 0#8⟩ = .instr .hlt ∧ exec .hlt (start 0#8 [0x01#8]) = .next t ∧ t.run ≠ .running) ∧
    (∃ t, (start 0#8 [0x54#8, 1#8]).fetch? = some ⟨0x54#8, 1#8, 0#8⟩ ∧ decode ⟨0x54#8, 1#8, 0#8⟩ = .instr (.jmp 1#8) ∧
      exec (.jmp 1#8) (start 0#8 [0x54#8, 1#8]) = .next t ∧ (0x54#8 : Byte).getLsbD 4 = true) ∧
    (∃ t, (start 0xFE#8 [0x82#8, 0#8, 7#8]).fetch? = some ⟨0x82#8, 0#8, 7#8⟩ ∧
      decode ⟨0x82#8, 0#8, 7#8⟩ = .instr (.ldi 0#8 7#8) ∧
      exec (.ldi 0#8 7#8) (start 0xFE#8 [0x82#8, 0#8, 7#8]) = .next t ∧ t.run = .running ∧ t.wrapPolicy = .wrap) ∧
    (∃ t, (startFault 0xFD#8 [0x47#8, 0#8]).fetch? = some ⟨0x47#8, 0#8, 0#8⟩ ∧
      decode ⟨0x47#8, 0#8, 0#8⟩ = .instr (.prn 0#8) ∧
      exec (.prn 0#8) (startFault 0xFD#8 [0x47#8, 0#8]) = .next t ∧ t.run = .running ∧
      t.pc.toNat + (1 + (0x47#8 >>> 6).toNat) = 255) ∧
    (∃ t, (startFault 0xFD#8 [0x82#8, 0#8, 7#8]).fetch? = some ⟨0x82#8, 0#8, 7#8⟩ ∧
      decode ⟨0x82#8, 0#8, 7#8⟩ = .instr (.ldi 0#8 7#8) ∧
      exec (.ldi 0#8 7#8) (startFault 0xFD#8 [0x82#8, 0#8, 7#8]) = .next t ∧ t.run = .running ∧
      t.wrapPolicy = .fault ∧ 255 < t.pc.toNat + (1 + (0x82#8 >>> 6).toNat)) := by
  refine ⟨⟨_, by decide, by decide, by decide, rfl, by decide⟩, ⟨_, by decide, by decide, rfl, by decide⟩,
    ⟨_, by decide, by decide, rfl, by decide, by decide⟩, ⟨_, by decide, by decide, rfl, by decide, by decide⟩,
    ⟨_, by decide, by decide, rfl, by decide, by decide, by decide⟩⟩

theorem witness_FetchReadsThreeBytesAtPc :
    (start 0xFF#8 []).wrapPolicy = .wrap ∧ (startFault 0xFD#8 []).pc.toNat ≤ 253 := by decide

theorem witness_FetchPastTheEndStopsUnderFault :
    (startFault 0xFE#8 []).run = .running ∧ (startFault 0xFE#8 []).wrapPolicy = .fault ∧
    254 ≤ (startFault 0xFE#8 []).pc.toNat := by decide

theorem witness_DecodeErrorChangesOnlyRun :
    (start 3#8 [0xA1#8]).run = .running ∧ (start 3#8 [0xA1#8]).fetch? = some ⟨0xA1#8, 0#8, 0#8⟩ ∧
    (decode ⟨0xA1#8, 0#8, 0#8⟩).instr? = none := by decide

theorem witness_StoppedStepChangesNothing : (State.reset.setRun .haltedOk).run ≠ .running := by decide

theorem witness_EventsAreForever :
    (State.reset.setRun (.decodeError 0#8 0#8)).run = .decodeError 0#8 0#8 ∧
    (State.reset.setRun (.guestUB .badRegisterIndex)).run = .guestUB .badRegisterIndex := by decide

/-- Also the hypotheses of StepKeepsTheWrapPolicy, MemoryChangesOnlyByStPushCall, FlagsChangeOnlyByCmp and
OutputGrowsOnlyByPrn. -/
theorem witness_StepKeepsTheInvariant :
    (∃ t, addState.Inv ∧ step addState = .next t ∧ t.pc = 3#8) ∧
    (∃ t, step (start 0#8 [0x45#8, 0#8]) = .next t ∧ t.sp = 0xF3#8) ∧
    (∃ t, step (start 0#8 [0xA7#8, 0#8, 1#8]) = .next t ∧ t.fl = 1#8) ∧
    (∃ t, step (start 0#8 [0x47#8, 7#8]) = .next t ∧ t.out = [0xF4#8]) := by
  refine ⟨⟨_, by decide, next_of_after (Option.some_get (by decide)).symm, by decide⟩,
    ⟨_, next_of_after (Option.some_get (by decide)).symm, by decide⟩,
    ⟨_, next_of_after (Option.some_get (by decide)).symm, by decide⟩,
    ⟨_, next_of_after (Option.some_get (by decide)).symm, by decide⟩⟩

theorem witness_RunKeepsTheInvariant :
    ∃ t, addState.Inv ∧ Host.Core.run Sys2Proof.core 1 addState = .next t := by
  refine ⟨_, by decide, next_of_after (Option.some_get (by decide)).symm⟩

theorem witness_UnnamedRegistersAreNeitherReadNorWritten :
    ∃ t, (6 : Fin 8) ≠ 7 ∧ (∀ a ∈ regOperands (.add 0#8 1#8), a.toNat ≠ (6 : Fin 8).val) ∧
      exec (.add 0#8 1#8) addState = .next t := by
  refine ⟨_, by decide, by decide, rfl⟩

theorem witness_ValidInstructionsNeverStopUnderWrap :
    ∃ t, Instr.WellFormed (.call 7#8) ∧ Instr.call 7#8 ≠ .hlt ∧ State.reset.wrapPolicy = .wrap ∧
      exec (.call 7#8) State.reset = .next t :=
  ⟨_, by decide, by decide, by decide, rfl⟩

theorem witness_NoRegisterIsHardwired : (7#8 : Byte).toNat < 8 ∧ (0#8 : Byte).toNat < 8 := by decide

theorem witness_EveryCellIsWritable :
    ((State.reset.setReg 0 255#8).setReg 1 1#8).reg 0 = 255#8 ∧ ((State.reset.setReg 0 255#8).setReg 1 1#8).reg 1 = 1#8 := by
  decide

theorem witness_CanonicalMemoriesThatReadAlikeAreEqual :
    Memory.wf [(0, 1#8), (255, 2#8)] ∧ Memory.write (Memory.write [] 255#8 2#8) 0#8 1#8 = [(0, 1#8), (255, 2#8)] := by decide

/-- The sums at both edges: in range at 0 and 255, out of it at -1 and 256. -/
theorem witness_WrapaddIsModuloOrStops :
    wrapadd .wrap 0#8 (-1) = some 255#8 ∧ wrapadd .fault 1#8 (-1) = some 0#8 ∧ wrapadd .fault 0#8 (-1) = none ∧
    wrapadd .wrap 255#8 1 = some 0#8 ∧ wrapadd .fault 252#8 3 = some 255#8 ∧ wrapadd .fault 253#8 3 = none := by decide

/-- Register operands at the edges of the clauses of AddResult, MulResult, AndResult, OrResult, XorResult, CmpResult,
StResult, JmpResult, LdiResult and PrnResult: 7 and 0 name registers; 8 does not. -/
theorem witness_register_clauses :
    (7#8 : Byte).toNat < 8 ∧ (0#8 : Byte).toNat < 8 ∧ 8 ≤ (8#8 : Byte).toNat := by decide

theorem witness_AluWritesOnlyItsDestinationAndReadsNoFlag :
    (∃ t, exec (.add 0#8 1#8) addState = .next t) ∧ (∃ t, exec (.xor 8#8 1#8) addState = .next t) ∧
    (∃ t, exec (.cmp 0#8 7#8) addState = .next t ∧ t.fl = 4#8) ∧ (∃ t, exec (.cmp 0#8 8#8) addState = .next t) ∧
    (∃ t, exec .ret addState = .next t) :=
  ⟨⟨_, rfl⟩, ⟨_, rfl⟩, ⟨_, rfl, by decide⟩, ⟨_, rfl⟩, ⟨_, rfl⟩⟩

theorem witness_JmpToItselfLoopsForever :
    ((start 5#8 [0x54#8, 1#8]).setReg 1 5#8).run = .running ∧
    ((start 5#8 [0x54#8, 1#8]).setReg 1 5#8).fetch? = some ⟨0x54#8, 1#8, 0#8⟩ ∧
    decode ⟨0x54#8, 1#8, 0#8⟩ = .instr (.jmp 1#8) ∧
    ((start 5#8 [0x54#8, 1#8]).setReg 1 5#8).reg ⟨(1#8 : Byte).toNat, by decide⟩ = 5#8 := by decide

/-- The clauses of JeqResult and JneResult: E set, E clear under `wrap`, and under `fault` at 253 and at 254. -/
theorem witness_JeqResult_JneResult :
    (State.reset.setFl 1#8).fl.getLsbD 0 = true ∧ (State.reset.setFl 0xFE#8).fl.getLsbD 0 = false ∧
    State.reset.wrapPolicy = .wrap ∧ (startFault 253#8 []).pc.toNat ≤ 253 ∧
    (startFault 254#8 []).wrapPolicy = .fault ∧ 254 ≤ (startFault 254#8 []).pc.toNat ∧
    ((startFault 254#8 []).setFl 1#8).fl.getLsbD 0 = true := by decide

/-- The clauses of CallResult and PushResult: `wrap` with SP = 0, `fault` with SP = 1 and pc = 253, `fault` with SP = 0,
and `fault` with pc = 254. -/
theorem witness_CallResult_PushResult :
    (State.reset.setReg 7 0#8).wrapPolicy = .wrap ∧
    ((startFault 253#8 []).setReg 7 1#8).pc.toNat ≤ 253 ∧ ((startFault 253#8 []).setReg 7 1#8).sp ≠ 0#8 ∧
    ((startFault 253#8 []).setReg 7 0#8).wrapPolicy = .fault ∧ ((startFault 253#8 []).setReg 7 0#8).sp = 0#8 ∧
    254 ≤ (startFault 254#8 []).pc.toNat := by decide

/-- The clauses of RetResult and PopResult: `wrap`, `fault` with SP = 254, `fault` with SP = 255, a top of stack that is
255 and one that is not, operands 6, 7 and 8. -/
theorem witness_RetResult_PopResult :
    State.reset.wrapPolicy = .wrap ∧ ((startFault 0#8 []).setReg 7 254#8).sp ≠ 255#8 ∧
    (startFault 0#8 []).wrapPolicy = .fault ∧ ((startFault 0#8 []).setReg 7 255#8).sp = 255#8 ∧
    ((startFault 0#8 [255#8]).setReg 7 0#8).memRead ((startFault 0#8 [255#8]).setReg 7 0#8).sp = 255#8 ∧
    (startFault 0#8 []).memRead (startFault 0#8 []).sp ≠ 255#8 ∧
    (6#8 : Byte).toNat < 8 ∧ (6#8 : Byte).toNat ≠ 7 ∧ (7#8 : Byte).toNat = 7 ∧ 8 ≤ (8#8 : Byte).toNat := by decide

/-- Also the hypotheses of HaltingRunIsSafe. -/
theorem witness_HltResult :
    (start 0xFF#8 [0x01#8]).run = .running ∧ (start 0xFF#8 [0x01#8]).fetch? = some ⟨0x01#8, 0#8, 0#8⟩ ∧
    decode ⟨0x01#8, 0#8, 0#8⟩ = .instr .hlt := by decide

theorem witness_FrameOfRegisterLoads :
    (∃ t, exec (.ldi 7#8 1#8) State.reset = .next t) ∧ (∃ t, exec (.pop 6#8) State.reset = .next t) ∧
    (∃ t, exec (.pop 8#8) State.reset = .next t) ∧ (∃ t, exec .ret State.reset = .next t) :=
  ⟨⟨_, rfl⟩, ⟨_, rfl⟩, ⟨_, rfl⟩, ⟨_, rfl⟩⟩

theorem witness_FrameOfJumpsOutputAndHalt :
    (∃ t, exec (.jmp 7#8) State.reset = .next t) ∧ (∃ t, exec (.jeq 9#8) State.reset = .next t) ∧
    (∃ t, exec (.jne 8#8) State.reset = .next t) ∧ (∃ t, exec (.prn 0#8) State.reset = .next t) ∧
    (∃ t, exec .hlt State.reset = .next t) :=
  ⟨⟨_, rfl⟩, ⟨_, rfl⟩, ⟨_, rfl⟩, ⟨_, rfl⟩, ⟨_, rfl⟩⟩

/-- With the addresses stored to: 0x80 for ST, 0xF3 for PUSH and CALL from reset. -/
theorem witness_FrameOfStores :
    (∃ t, exec (.st 0#8 1#8) (State.reset.setReg 0 0x80#8) = .next t ∧
      (regIndex 0#8).map (State.reset.setReg 0 0x80#8).reg = some 0x80#8) ∧
    (∃ t, exec (.push 0#8) State.reset = .next t ∧ wrapadd State.reset.wrapPolicy State.reset.sp (-1) = some 0xF3#8) ∧
    (∃ t, exec (.call 8#8) State.reset = .next t) :=
  ⟨⟨_, rfl, by decide⟩, ⟨_, rfl, by decide⟩, ⟨_, rfl⟩⟩

/-- Under `wrap` with SP = 0, and under `fault` with SP = 1 and pc = 253; the code between may be empty (u = t). -/
theorem witness_CallThenRetResumesAfterTheCall :
    (∃ t, (State.reset.setReg 7 0#8).wrapPolicy = .wrap ∧ exec (.call 1#8) (State.reset.setReg 7 0#8) = .next t) ∧
    (∃ t, 1 ≤ ((startFault 253#8 []).setReg 7 1#8).sp.toNat ∧ ((startFault 253#8 []).setReg 7 1#8).pc.toNat ≤ 253 ∧
      exec (.call 1#8) ((startFault 253#8 []).setReg 7 1#8) = .next t) :=
  ⟨⟨_, by decide, rfl⟩, ⟨_, by decide, by decide, rfl⟩⟩

theorem witness_PushThenPopRestores :
    ∃ t, State.reset.wrapPolicy = .wrap ∧ exec (.push 7#8) State.reset = .next t ∧ t.sp = 0xF3#8 ∧
      t.memRead t.sp = 0xF3#8 := by
  refine ⟨_, by decide, rfl, by decide, by decide⟩

theorem witness_NextFetchSeesTheStore :
    (start 6#8 [0x84#8, 1#8, 0#8]).run = .running ∧ (start 6#8 [0x84#8, 1#8, 0#8]).wrapPolicy = .wrap ∧
    (start 6#8 [0x84#8, 1#8, 0#8]).fetch? = some ⟨0x84#8, 1#8, 0#8⟩ ∧
    decode ⟨0x84#8, 1#8, 0#8⟩ = .instr (.st 1#8 0#8) := by decide

theorem witness_LoadPutsTheImageAtZero :
    (List.replicate 256 (1#8 : Byte)).length ≤ 256 ∧ 256 < (List.replicate 257 (1#8 : Byte)).length :=
  ⟨Nat.le_of_eq List.length_replicate, Nat.lt_of_lt_of_eq (by decide) List.length_replicate.symm⟩

theorem witness_FirstFetchReadsTheImage :
    ∃ s, Config.reference.resetPc = 0#8 ∧ (encode .hlt ++ []).length ≤ 256 ∧
      boot Config.reference (encode .hlt ++ []) = .next s :=
  ⟨_, rfl, by decide, rfl⟩

theorem witness_TraceShowsPcFetchedBytesAndRegisters :
    (start 0xFF#8 [0x54#8, 3#8]).fetch? = some ⟨0x54#8, 3#8, 0#8⟩ := by decide

/-- A stop by HLT, one by a bad index, and one by RET under `fault` with SP = 255. -/
theorem witness_StoppingStepKeepsPc :
    (∃ t, (start 0#8 [0x01#8]).run = .running ∧ step (start 0#8 [0x01#8]) = .next t ∧ t.run ≠ .running) ∧
    (∃ t, (start 0#8 [0x47#8, 8#8]).run = .running ∧ step (start 0#8 [0x47#8, 8#8]) = .next t ∧ t.run ≠ .running) ∧
    (∃ t, ((startFault 0#8 [0x11#8]).setReg 7 255#8).run = .running ∧
      step ((startFault 0#8 [0x11#8]).setReg 7 255#8) = .next t ∧ t.run ≠ .running) := by
  refine ⟨⟨_, by decide, next_of_after (Option.some_get (by decide)).symm, by decide⟩,
    ⟨_, by decide, next_of_after (Option.some_get (by decide)).symm, by decide⟩,
    ⟨_, by decide, next_of_after (Option.some_get (by decide)).symm, by decide⟩⟩

end Sys2Proof.Tests
end

/-! PROOFS. The statements about the state (10_state.md): the trace (R34), and a register that no operand names (R23). -/

namespace Sys2Proof.Machine

/-! ## The trace (10_state.md R34) -/

/-- The fetch answers exactly when both operand bytes of the trace exist, and the latch is what the trace shows. -/
theorem State.fetch?_eq_trace (s : State) :
    s.fetch? = s.trace.a.bind fun a => s.trace.b.map fun b => ⟨s.trace.op, a, b⟩ := by
  unfold State.fetch? State.trace
  cases wrapadd s.wrapPolicy s.pc 1 with
  | none => rfl
  | some pc1 => cases wrapadd s.wrapPolicy s.pc 2 <;> rfl

/-- Settles O56: the latch is made of the trace's three bytes, and pc and the registers are the state's own. -/
theorem traceShowsPcFetchedBytesAndRegisters : Obligations.TraceShowsPcFetchedBytesAndRegisters := by
  intro s l hl
  rw [s.fetch?_eq_trace, Option.bind_eq_some_iff] at hl
  obtain ⟨a, ha, hl⟩ := hl
  obtain ⟨b, hb, rfl⟩ := Option.map_eq_some_iff.1 hl
  exact ⟨rfl, rfl, ha, hb, fun _ => rfl⟩

/-! ## A register that no operand names (10_state.md R23)

Each shared operation, run from a state with another byte in register `r`, answers what it answered before with that
byte in `r`, provided that it neither names `r` nor uses it as SP, and that what follows it does the same. -/

/-- The answer `p` with `v` put in register `r` of the state it holds. -/
def setRegAfter (r : Fin 8) (v : Byte) (p : Result) : Result :=
  match p with
  | .next t => .next (t.setReg r v)
  | .fault f => .fault f
  | .refused f => .refused f

@[simp] theorem setRegAfter_next (r : Fin 8) (v : Byte) (t : State) :
    setRegAfter r v (.next t) = .next (t.setReg r v) := rfl

section
variable {s : State} {r : Fin 8} {v : Byte}

theorem State.sp_setReg_of_ne (hr : r ≠ spIndex) : (s.setReg r v).sp = s.sp := s.setReg_reg_of_ne hr v

theorem State.stackTop_setReg_of_ne (hr : r ≠ spIndex) : (s.setReg r v).stackTop = s.stackTop := by
  simp [State.stackTop, State.sp_setReg_of_ne hr]

theorem State.storeAtSp_setReg_of_ne (hr : r ≠ spIndex) (w : Byte) :
    (s.setReg r v).storeAtSp w = (s.storeAtSp w).setReg r v := by
  unfold State.storeAtSp
  rw [State.sp_setReg_of_ne hr]
  rfl

theorem State.readReg_setReg {i : Byte} (hi : i.toNat ≠ r.val) {cont cont' : Byte → Result}
    (h : ∀ w, cont' w = setRegAfter r v (cont w)) :
    (s.setReg r v).readReg i cont' = setRegAfter r v (s.readReg i cont) := by
  rcases Nat.lt_or_ge i.toNat 8 with hlt | hge
  · have hne : r ≠ ⟨i.toNat, hlt⟩ := fun e => hi (congrArg Fin.val e).symm
    rw [State.readReg_of_lt _ hlt, State.readReg_of_lt _ hlt, State.setReg_reg_of_ne _ hne, h]
  · rw [State.readReg_of_ge _ hge, State.readReg_of_ge _ hge]
    rfl

theorem State.writeReg_setReg {i : Byte} (hi : i.toNat ≠ r.val) (w : Byte) {cont cont' : State → Result}
    (h : ∀ u, cont' (u.setReg r v) = setRegAfter r v (cont u)) :
    (s.setReg r v).writeReg i w cont' = setRegAfter r v (s.writeReg i w cont) := by
  rcases Nat.lt_or_ge i.toNat 8 with hlt | hge
  · have hne : r ≠ ⟨i.toNat, hlt⟩ := fun e => hi (congrArg Fin.val e).symm
    rw [State.writeReg_of_lt _ hlt, State.writeReg_of_lt _ hlt, State.setReg_comm _ hne, h]
  · rw [State.writeReg_of_ge _ hge, State.writeReg_of_ge _ hge]
    rfl

theorem State.readRegs_setReg {a b : Byte} (ha : a.toNat ≠ r.val) (hb : b.toNat ≠ r.val)
    {cont cont' : Byte → Byte → Result} (h : ∀ w z, cont' w z = setRegAfter r v (cont w z)) :
    (s.setReg r v).readRegs a b cont' = setRegAfter r v (s.readRegs a b cont) :=
  State.readReg_setReg ha fun w => State.readReg_setReg hb fun z => h w z

theorem State.aluBinary_setReg (f : Byte → Byte → Byte) {a b : Byte} (ha : a.toNat ≠ r.val)
    (hb : b.toNat ≠ r.val) : (s.setReg r v).aluBinary f a b = setRegAfter r v (s.aluBinary f a b) :=
  State.readRegs_setReg ha hb fun _ _ => State.writeReg_setReg ha _ fun _ => rfl

theorem State.jumpToReg_setReg {a : Byte} (ha : a.toNat ≠ r.val) :
    (s.setReg r v).jumpToReg a = setRegAfter r v (s.jumpToReg a) :=
  State.readReg_setReg ha fun _ => rfl

theorem State.withWrapadd_setReg (a : Byte) (k : Int) {cont cont' : Byte → Result}
    (h : ∀ w, cont' w = setRegAfter r v (cont w)) :
    (s.setReg r v).withWrapadd a k cont' = setRegAfter r v (s.withWrapadd a k cont) := by
  unfold State.withWrapadd
  rw [State.setReg_wrapPolicy]
  cases wrapadd s.wrapPolicy a k with
  | some w => exact h w
  | none => rfl

theorem State.moveSp_setReg (hr : r ≠ spIndex) (k : Int) {cont cont' : State → Result}
    (h : ∀ u, cont' (u.setReg r v) = setRegAfter r v (cont u)) :
    (s.setReg r v).moveSp k cont' = setRegAfter r v (s.moveSp k cont) := by
  unfold State.moveSp
  rw [State.sp_setReg_of_ne hr]
  exact State.withWrapadd_setReg _ _ fun w => by rw [State.setReg_comm _ hr, h]

theorem State.fallThrough_setReg : (s.setReg r v).fallThrough = setRegAfter r v s.fallThrough :=
  State.withWrapadd_setReg s.pc 2 fun _ => rfl

/-- Every handler, from a state with another byte in a register that is not SP and that no operand names. -/
theorem exec_setReg (i : Instr) (hr : r ≠ spIndex) (hi : ∀ a ∈ regOperands i, a.toNat ≠ r.val) :
    exec i (s.setReg r v) = setRegAfter r v (exec i s) := by
  cases i with
    simp only [regOperands, List.forall_mem_cons, List.not_mem_nil, false_implies, implies_true, and_true] at hi
  | add a b => exact State.aluBinary_setReg _ hi.1 hi.2
  | mul a b => exact State.aluBinary_setReg _ hi.1 hi.2
  | and a b => exact State.aluBinary_setReg _ hi.1 hi.2
  | or a b => exact State.aluBinary_setReg _ hi.1 hi.2
  | xor a b => exact State.aluBinary_setReg _ hi.1 hi.2
  | cmp a b =>
    simp only [exec, execCmp]
    exact State.readRegs_setReg hi.1 hi.2 fun _ _ => rfl
  | jmp a => exact State.jumpToReg_setReg hi
  | jeq a =>
    simp only [exec, execJeq]
    rw [State.jumpToReg_setReg hi, State.fallThrough_setReg, ← apply_ite (setRegAfter r v), State.setReg_fl]
  | jne a =>
    simp only [exec, execJne]
    rw [State.jumpToReg_setReg hi, State.fallThrough_setReg, ← apply_ite (setRegAfter r v), State.setReg_fl]
  | call a =>
    simp only [exec, execCall]
    refine State.withWrapadd_setReg _ _ fun ret => State.moveSp_setReg hr _ fun u => ?_
    rw [State.storeAtSp_setReg_of_ne hr]
    exact State.jumpToReg_setReg hi
  | ret =>
    simp only [exec, execRet, State.stackTop_setReg_of_ne hr]
    exact State.moveSp_setReg hr 1 fun _ => rfl
  | ldi a b => exact State.writeReg_setReg hi b fun _ => rfl
  | st a b =>
    simp only [exec, execSt]
    exact State.readRegs_setReg hi.1 hi.2 fun _ _ => rfl
  | push a =>
    simp only [exec, execPush]
    refine State.moveSp_setReg hr _ fun u => State.readReg_setReg hi fun w => ?_
    rw [State.storeAtSp_setReg_of_ne hr, setRegAfter_next]
  | pop a =>
    simp only [exec, execPop, State.stackTop_setReg_of_ne hr]
    exact State.writeReg_setReg hi _ fun _ => State.moveSp_setReg hr 1 fun _ => rfl
  | prn a =>
    simp only [exec, execPrn]
    exact State.readReg_setReg hi fun _ => rfl
  | hlt => rfl

end

/-- Settles O20. Nothing reads `r` by `exec_setReg`; and nothing writes it, since putting back in `r` the byte that it
holds before changes neither the state before nor, therefore, the state after. -/
theorem unnamedRegistersAreNeitherReadNorWritten : Obligations.UnnamedRegistersAreNeitherReadNorWritten := by
  intro i s t r v hr hi ht
  have hread (w : Byte) : exec i (s.setReg r w) = .next (t.setReg r w) := by
    rw [exec_setReg i hr hi, ht, setRegAfter_next]
  refine ⟨?_, hread v⟩
  have hkept : t = t.setReg r (s.reg r) := by
    have hsame := hread (s.reg r)
    rw [State.setReg_reg_eq, ht] at hsame
    exact Host.Outcome.next.inj hsame
  calc t.reg r = (t.setReg r (s.reg r)).reg r := congrArg (State.reg · r) hkept
    _ = s.reg r := State.setReg_reg_self t r _

end Sys2Proof.Machine

/-! PROOFS. The statements about memory (20_memory.md): address arithmetic (R53), a store and the reads after it (R52), and
which instructions change memory (R60). -/

namespace Sys2Proof.Machine

/-! ## Address arithmetic (20_memory.md R53) -/

/-- The sum of a byte and an offset, written as the spec writes it. -/
theorem byte_add_ofInt (a : Byte) (k : Int) :
    a + BitVec.ofInt 8 k = BitVec.ofNat 8 (((a.toNat : Int) + k) % 256).toNat := by
  apply BitVec.eq_of_toNat_eq
  rw [BitVec.toNat_add, BitVec.toNat_ofInt, BitVec.toNat_ofNat]
  omega

/-- Settles O25: each clause is one of the laws of `wrapadd`, and a sum inside 0..255 is its own remainder. -/
theorem wrapaddIsModuloOrStops : Obligations.WrapaddIsModuloOrStops := by
  intro a k
  refine ⟨?_, fun hin => ?_, wrapadd_fault_of_out⟩
  · rw [wrapadd_wrap, byte_add_ofInt]
  · rw [wrapadd_fault_of_in hin, byte_add_ofInt, Int.emod_eq_of_lt hin.1 (by omega)]

/-! ## A store, and the reads after it (20_memory.md R52) -/

/-- ST whose operands both name registers stores, and does nothing else (43_data.md R161). -/
theorem exec_st_of_lt (s : State) {a b : Byte} (ha : a.toNat < 8) (hb : b.toNat < 8) :
    exec (.st a b) s = .next (s.memWrite (s.reg ⟨a.toNat, ha⟩) (s.reg ⟨b.toNat, hb⟩)) :=
  s.readRegs_of_lt ha hb fun addr v => .next (s.memWrite addr v)

theorem State.memWrite_memRead_of_ne (s : State) {a b : Byte} (h : b ≠ a) (v : Byte) :
    (s.memWrite a v).memRead b = s.memRead b :=
  Memory.read_write_other s.mem v h

/-- Settles O23: the state after is the store's, and a read gives the byte there and the old byte elsewhere. -/
theorem everyCellIsWritable : Obligations.EveryCellIsWritable := by
  rintro s adr v rfl rfl
  exact ⟨_, exec_st_of_lt s (by decide) (by decide), s.memWrite_memRead_same _ _,
    fun _ hne => s.memWrite_memRead_of_ne hne _⟩

/-! ## What holds of every next state

One rule for each shared operation: a property of states holds of whatever the operation answers if it holds of the
state that the operation stops in and of whatever follows it answers. -/

/-- Every next state that `p` answers has the property `P`. -/
def Ensures (p : Result) (P : State → Prop) : Prop := ∀ t, p = .next t → P t

@[simp] theorem ensures_next {t : State} {P : State → Prop} : Ensures (.next t) P ↔ P t :=
  ⟨fun h => h t rfl, fun h _ e => Host.Outcome.next.inj e ▸ h⟩

section
variable {s : State} {P : State → Prop} (hstop : ∀ e, P (s.setRun e))
include hstop

theorem State.readReg_ensures {i : Byte} {cont : Byte → Result} (h : ∀ v, Ensures (cont v) P) :
    Ensures (s.readReg i cont) P := by
  rcases s.readReg_cases i cont with ⟨_, e⟩ | ⟨-, e⟩ <;> rw [e]
  · exact h _
  · exact ensures_next.2 (hstop _)

theorem State.writeReg_ensures {i v : Byte} {cont : State → Result} (h : ∀ r, Ensures (cont (s.setReg r v)) P) :
    Ensures (s.writeReg i v cont) P := by
  rcases s.writeReg_cases i v cont with ⟨_, e⟩ | ⟨-, e⟩ <;> rw [e]
  · exact h _
  · exact ensures_next.2 (hstop _)

theorem State.readRegs_ensures {a b : Byte} {cont : Byte → Byte → Result} (h : ∀ v w, Ensures (cont v w) P) :
    Ensures (s.readRegs a b cont) P :=
  State.readReg_ensures hstop fun v => State.readReg_ensures hstop (h v)

theorem State.withWrapadd_ensures {a : Byte} {k : Int} {cont : Byte → Result} (h : ∀ v, Ensures (cont v) P) :
    Ensures (s.withWrapadd a k cont) P := by
  rcases s.withWrapadd_cases a k cont with e | ⟨-, e⟩ <;> rw [e]
  · exact h _
  · exact ensures_next.2 (hstop _)

theorem State.moveSp_ensures {k : Int} {cont : State → Result} (h : ∀ v, Ensures (cont (s.setReg spIndex v)) P) :
    Ensures (s.moveSp k cont) P :=
  State.withWrapadd_ensures hstop h

theorem State.aluBinary_ensures {f : Byte → Byte → Byte} {a b : Byte} (h : ∀ r v, P (s.setReg r v)) :
    Ensures (s.aluBinary f a b) P :=
  State.readRegs_ensures hstop fun _ _ => State.writeReg_ensures hstop fun r => ensures_next.2 (h r _)

theorem State.jumpToReg_ensures {a : Byte} (h : ∀ v, P (s.setPc v)) : Ensures (s.jumpToReg a) P :=
  State.readReg_ensures hstop fun v => ensures_next.2 (h v)

theorem State.fallThrough_ensures (h : ∀ v, P (s.setPc v)) : Ensures s.fallThrough P :=
  State.withWrapadd_ensures hstop fun v => ensures_next.2 (h v)

theorem State.advance_ensures {op : Byte} (hpc : ∀ v, P (s.setPc v)) (hs : P s) : Ensures (s.advance op) P := by
  rcases s.advance_cases op with ⟨-, -, e⟩ | ⟨-, -, -, e⟩ | ⟨-, e⟩ <;> rw [e]
  · exact ensures_next.2 (hpc _)
  · exact ensures_next.2 (hstop _)
  · exact ensures_next.2 hs

end

/-! ## Which instructions change memory (20_memory.md R60) -/

/-- The instructions that write memory: ST, PUSH and CALL (20_memory.md R60). -/
def StoresToMemory (i : Instr) : Prop := (∃ a b, i = .st a b) ∨ (∃ a, i = .push a) ∨ (∃ a, i = .call a)

/-- The handler of any other instruction leaves memory as it is, whether it stops or not. -/
theorem exec_keeps_mem {i : Instr} (s : State) (hi : ¬StoresToMemory i) :
    Ensures (exec i s) fun t => t.mem = s.mem := by
  have hstop (e : RunState) : (s.setRun e).mem = s.mem := s.setRun_mem e
  have hjump {a : Byte} : Ensures (s.jumpToReg a) fun t => t.mem = s.mem := State.jumpToReg_ensures hstop s.setPc_mem
  have hfall : Ensures s.fallThrough fun t => t.mem = s.mem := State.fallThrough_ensures hstop s.setPc_mem
  cases i with
  | add a b => exact State.aluBinary_ensures hstop s.setReg_mem
  | mul a b => exact State.aluBinary_ensures hstop s.setReg_mem
  | and a b => exact State.aluBinary_ensures hstop s.setReg_mem
  | or a b => exact State.aluBinary_ensures hstop s.setReg_mem
  | xor a b => exact State.aluBinary_ensures hstop s.setReg_mem
  | cmp a b =>
    simp only [exec, execCmp]
    exact State.readRegs_ensures hstop fun _ _ => ensures_next.2 (s.setFl_mem _)
  | jmp a => exact hjump
  | jeq a =>
    simp only [exec, execJeq]
    split
    · exact hjump
    · exact hfall
  | jne a =>
    simp only [exec, execJne]
    split
    · exact hfall
    · exact hjump
  | call a => exact absurd (.inr (.inr ⟨a, rfl⟩)) hi
  | ret =>
    simp only [exec, execRet]
    exact State.moveSp_ensures hstop fun _ => ensures_next.2 rfl
  | ldi a b => exact State.writeReg_ensures hstop fun r => ensures_next.2 (s.setReg_mem r b)
  | st a b => exact absurd (.inl ⟨a, b, rfl⟩) hi
  | push a => exact absurd (.inr (.inl ⟨a, rfl⟩)) hi
  | pop a =>
    simp only [exec, execPop]
    exact State.writeReg_ensures hstop fun r =>
      State.moveSp_ensures (State.setRun_mem _) fun _ => ensures_next.2 rfl
  | prn a =>
    simp only [exec, execPrn]
    exact State.readReg_ensures hstop fun v => ensures_next.2 (s.emit_mem v)
  | hlt => exact ensures_next.2 (hstop _)

/-- A step runs a storing instruction, or it leaves memory as it is. -/
theorem step_stores_or_keeps_mem (s : State) :
    (∃ l i, s.fetch? = some l ∧ decode l = .instr i ∧ StoresToMemory i) ∨
      Ensures (step s) fun t => t.mem = s.mem := by
  rcases step_cases s with ⟨-, e⟩ | ⟨-, -, e⟩ | ⟨l, -, -, -, e⟩ | ⟨l, i, u, -, hf, hd, hu, e⟩ <;> rw [e]
  · exact .inr (ensures_next.2 rfl)
  · exact .inr (ensures_next.2 (s.setRun_mem _))
  · exact .inr (ensures_next.2 (s.setRun_mem _))
  · by_cases hi : StoresToMemory i
    · exact .inl ⟨l, i, hf, hd, hi⟩
    · have hmem : u.mem = s.mem := exec_keeps_mem s hi u hu
      exact .inr (State.advance_ensures (fun _ => hmem) (fun _ => hmem) hmem)

/-- Settles O17: what a step leaves as the same list reads the same at every address. -/
theorem memoryChangesOnlyByStPushCall : Obligations.MemoryChangesOnlyByStPushCall := by
  intro s t ht
  refine (step_stores_or_keeps_mem s).imp_right fun hkeep => ?_
  have hmem : t.mem = s.mem := hkeep t ht
  exact ⟨hmem, fun adr => congrArg (Memory.read · adr) hmem⟩

end Sys2Proof.Machine

/-! PROOFS. The statements about the encoding (30_encoding.md): the three formats (R73), the opcode of what is decoded, and
the length (R72). -/

namespace Sys2Proof.Machine

/-! ## The encoder (30_encoding.md R72, R80) -/

/-- The three formats: an encoding is its opcode and as many operand bytes as the opcode's bits 7..6 say. -/
theorem encode_cases (i : Instr) :
    (∃ op, encode i = [op] ∧ (op >>> 6).toNat = 0) ∨
      (∃ op a, encode i = [op, a] ∧ (op >>> 6).toNat = 1) ∨
      (∃ op a b, encode i = [op, a, b] ∧ (op >>> 6).toNat = 2) := by
  cases i with
  | ret | hlt => exact .inl ⟨_, rfl, rfl⟩
  | jmp | jeq | jne | call | push | pop | prn => exact .inr (.inl ⟨_, _, rfl, rfl⟩)
  | add | mul | and | or | xor | cmp | ldi | st => exact .inr (.inr ⟨_, _, _, rfl, rfl⟩)

/-- The length of an encoding, from its opcode byte. -/
theorem encode_length_of_cons {i : Instr} {op : Byte} {rest : List Byte} (h : encode i = op :: rest) :
    (encode i).length = 1 + (op >>> 6).toNat ∧ (op >>> 6).toNat ≤ 2 := by
  rcases encode_cases i with ⟨op', he, hn⟩ | ⟨op', a, he, hn⟩ | ⟨op', a, b, he, hn⟩
  all_goals
    have hop : op' = op := (List.cons.inj (he.symm.trans h)).1
    rw [he, ← hop, hn]
    exact ⟨rfl, by decide⟩

/-! ## The decoder's tables against the encoder (40_cycle.md R103 to R105) -/

/-- What the decoder answers is formed by a row of one of its two tables, the row of the opcode fetched. -/
theorem decode_instr_row {l : Latch} {i : Instr} (h : decode l = .instr i) :
    ∃ f, (l.op, f) ∈ aluTable ++ generalTable ∧ i = f l.a l.b := by
  unfold decode at h
  split at h
  · split at h
    · next f hf => exact ⟨f, List.mem_append_left _ (mem_of_lookupOpcode hf), (Decoded.instr.inj h).symm⟩
    · cases h
  · split at h
    · next f hf => exact ⟨f, List.mem_append_right _ (mem_of_lookupOpcode hf), (Decoded.instr.inj h).symm⟩
    · cases h

/-- Each row forms instructions that encode with the row's own opcode. -/
theorem encode_head_of_row {row : Byte × Former} (h : row ∈ aluTable ++ generalTable) (a b : Byte) :
    (encode (row.2 a b)).head? = some row.1 := by
  revert row
  simp only [aluTable, generalTable, List.cons_append, List.nil_append, List.forall_mem_cons]
  simp [encode]

/-- An instruction that is decoded encodes with the opcode it was decoded from. -/
theorem encode_of_decode_cons {l : Latch} {i : Instr} (h : decode l = .instr i) :
    ∃ rest, encode i = l.op :: rest := by
  obtain ⟨f, hrow, rfl⟩ := decode_instr_row h
  exact List.head?_eq_some_iff.1 (encode_head_of_row hrow l.a l.b)

/-! ## The length (30_encoding.md R72) -/

/-- Settles O3. A byte whose bits 7..6 are 3 is decoded to nothing, since it would be the opcode of what it decodes to, and
no opcode's bits 7..6 exceed 2. -/
theorem lengthComesFromOperandCount : Obligations.LengthComesFromOperandCount := by
  refine ⟨fun _ _ _ => encode_length_of_cons, fun l hl => ?_⟩
  rcases decode_cases l with ⟨i, hd⟩ | ⟨-, hd⟩ | ⟨-, hd⟩
  · obtain ⟨rest, he⟩ := encode_of_decode_cons hd
    have hle : (l.op >>> 6).toNat ≤ 2 := (encode_length_of_cons he).2
    omega
  · rw [hd]; rfl
  · rw [hd]; rfl

end Sys2Proof.Machine

/-! PROOFS. The statements about the step (40_cycle.md): the run check (R100), the fetch (R101), the decode error (R109), the
PC advance (R107, R108), and where a stop leaves pc (R107). -/

namespace Sys2Proof.Machine

/-! ## A step, one equation for each way it can go (40_cycle.md R108) -/

section
variable {s : State}

theorem step_of_not_running (hr : s.run ≠ .running) : step s = .next s := if_neg hr

theorem step_of_running (hr : s.run = .running) {l : Latch} (hf : s.fetch? = some l) {i : Instr}
    (hd : decode l = .instr i) : step s = advanceAfter l.op (exec i s) := by
  simp [step, State.withFetch, hr, hf, hd]

theorem step_of_fetch?_none (hr : s.run = .running) (hf : s.fetch? = none) :
    step s = .next (s.setRun (.guestUB .addressOutOfRange)) := by
  simp [step, State.withFetch, hr, hf, State.raiseGuestUB, State.raise]

theorem step_of_decode_none (hr : s.run = .running) {l : Latch} (hf : s.fetch? = some l)
    (hd : (decode l).instr? = none) : step s = .next (s.setRun (.decodeError l.op s.pc)) := by
  rcases decode_cases l with ⟨i, e⟩ | ⟨-, e⟩ | ⟨-, e⟩
  · rw [e] at hd; cases hd
  · simp [step, State.withFetch, hr, hf, e, State.raiseDecodeError, State.raise]
  · simp [step, State.withFetch, hr, hf, e, State.raiseDecodeError, State.raise]

end

/-- Settles O10: the run check comes first. -/
theorem stoppedStepChangesNothing : Obligations.StoppedStepChangesNothing := fun _ => step_of_not_running

/-- Settles O9: the opcode of the latch is the byte at pc. -/
theorem decodeErrorChangesOnlyRun : Obligations.DecodeErrorChangesOnlyRun := by
  intro s l hr hf hd
  have hop : l.op = s.memRead s.pc := congrArg Latch.op (State.fetch?_eq_some hf)
  rw [step_of_decode_none hr hf hd, hop]
  rfl

/-! ## The fetch (40_cycle.md R101) -/

/-- Where the sum may be taken, `wrapadd` answers it, under either policy. -/
theorem wrapadd_of_ok {policy : WrapPolicy} {a : Byte} {k : Int}
    (h : policy = .wrap ∨ (0 ≤ (a.toNat : Int) + k ∧ (a.toNat : Int) + k ≤ 255)) :
    wrapadd policy a k = some (a + BitVec.ofInt 8 k) := by
  cases policy with
  | wrap => exact wrapadd_wrap a k
  | fault => exact wrapadd_fault_of_in (h.resolve_left nofun)

/-- Unless the third address passes 255 under `fault`, the fetch answers. -/
theorem State.fetch?_of_ok {s : State} (h : s.wrapPolicy = .wrap ∨ s.pc.toNat ≤ 253) :
    s.fetch? = some ⟨s.memRead s.pc, s.memRead (s.pc + 1#8), s.memRead (s.pc + 2#8)⟩ := by
  have h1 : wrapadd s.wrapPolicy s.pc 1 = some (s.pc + 1#8) := wrapadd_of_ok (h.imp_right fun _ => by omega)
  have h2 : wrapadd s.wrapPolicy s.pc 2 = some (s.pc + 2#8) := wrapadd_of_ok (h.imp_right fun _ => by omega)
  simp [State.fetch?, h1, h2]

/-- Under `fault` there is no third byte at 254 and 255, and the fetch fails. -/
theorem State.fetch?_of_end {s : State} (hp : s.wrapPolicy = .fault) (h : 254 ≤ s.pc.toNat) : s.fetch? = none := by
  have h2 : wrapadd s.wrapPolicy s.pc 2 = none := by
    rw [hp]
    exact wrapadd_fault_of_out (by omega)
  simp [State.fetch?, h2]

/-- A byte moved up by a number, written as the spec writes it. -/
theorem byte_add_ofNat (a : Byte) (n : Nat) : a + BitVec.ofNat 8 n = BitVec.ofNat 8 (a.toNat + n) := by
  rw [BitVec.ofNat_add, BitVec.ofNat_toNat, BitVec.setWidth_eq]

theorem byte_ofNat_mod (n : Nat) : BitVec.ofNat 8 (n % 256) = BitVec.ofNat 8 n :=
  BitVec.eq_of_toNat_eq (Nat.mod_mod n 256)

/-- Settles O7: `wrap`, or a pc of at most 253, lets both sums be taken. -/
theorem fetchReadsThreeBytesAtPc : Obligations.FetchReadsThreeBytesAtPc := by
  intro s h
  rw [State.fetch?_of_ok h, byte_ofNat_mod, byte_ofNat_mod, ← byte_add_ofNat, ← byte_add_ofNat]

/-- Settles O8: the fetch fails for want of its third byte, before decode. -/
theorem fetchPastTheEndStopsUnderFault : Obligations.FetchPastTheEndStopsUnderFault :=
  fun _ hr hp h => step_of_fetch?_none hr (State.fetch?_of_end hp h)

/-! ## The PC advance (40_cycle.md R107, R108) -/

/-- The length, with the shift of 30_encoding.md R72 written out. -/
theorem insnLength_eq (op : Byte) : insnLength op = 1 + (op >>> 6).toNat := by
  have hlt : op.toNat >>> 6 < 4 := by rw [Nat.shiftRight_eq_div_pow]; omega
  simp [insnLength, opCount, Nat.mod_eq_of_lt hlt]

section
variable {s : State} {op : Byte}

theorem State.advance_of_kept (h : s.run ≠ .running ∨ opPcSet op = true) : s.advance op = .next s :=
  if_neg fun ⟨hr, hc⟩ => by simp [hr, hc] at h

theorem State.advance_of_running (hr : s.run = .running) (hc : opPcSet op = false) :
    s.advance op = s.withWrapadd s.pc (insnLength op) fun pc' => .next (s.setPc pc') :=
  if_pos ⟨hr, hc⟩

end

/-- Settles O6: the step is the handler and then the advance, which keeps pc, moves it or stops. -/
theorem stepRunsTheDecodedInstruction : Obligations.StepRunsTheDecodedInstruction := by
  intro s t l i hr hf hd ht
  have hstep : step s = t.advance l.op := by
    rw [step_of_running hr hf hd, ht]
    rfl
  rw [hstep, ← insnLength_eq]
  refine ⟨State.advance_of_kept, fun hrun hc => ?_⟩
  rw [State.advance_of_running hrun hc]
  refine ⟨fun hok => ?_, fun ⟨hp, hout⟩ => t.withWrapadd_of_out _ hp (by omega)⟩
  rw [t.withWrapadd_of_ok _ (hok.imp_right fun _ => by omega), BitVec.ofInt_natCast, byte_add_ofNat]

/-! ## Where a stop leaves pc (40_cycle.md R107, 10_state.md R27) -/

/-- Bits 5 and 4 of an opcode that is decoded are those of the instruction (30_encoding.md R81). -/
theorem fieldBits_of_decode {l : Latch} {i : Instr} (h : decode l = .instr i) :
    (opAlu l.op, opPcSet l.op) = Laws.FieldBits.expected i := by
  obtain ⟨rest, he⟩ := encode_of_decode_cons h
  have hbits : Laws.FieldBits.Statement i := by
    cases i <;> exact Laws.FieldBits.of_head rfl rfl
  exact hbits l.op rest he

/-- The handler of an instruction that does not set pc leaves it as it is, whether it stops or not. -/
theorem exec_keeps_pc {i : Instr} (s : State) (hi : (Laws.FieldBits.expected i).2 = false) :
    Ensures (exec i s) fun t => t.pc = s.pc := by
  have hstop (e : RunState) : (s.setRun e).pc = s.pc := s.setRun_pc e
  cases i with
  | jmp | jeq | jne | call | ret => cases hi
  | add | mul | and | or | xor => exact State.aluBinary_ensures hstop s.setReg_pc
  | cmp a b =>
    simp only [exec, execCmp]
    exact State.readRegs_ensures hstop fun _ _ => ensures_next.2 (s.setFl_pc _)
  | ldi a b => exact State.writeReg_ensures hstop fun r => ensures_next.2 (s.setReg_pc r b)
  | st a b =>
    simp only [exec, execSt]
    exact State.readRegs_ensures hstop fun _ _ => ensures_next.2 (s.memWrite_pc _ _)
  | push a =>
    simp only [exec, execPush]
    exact State.moveSp_ensures hstop fun _ =>
      State.readReg_ensures (State.setRun_pc _) fun _ => ensures_next.2 rfl
  | pop a =>
    simp only [exec, execPop]
    exact State.writeReg_ensures hstop fun _ =>
      State.moveSp_ensures (State.setRun_pc _) fun _ => ensures_next.2 rfl
  | prn a =>
    simp only [exec, execPrn]
    exact State.readReg_ensures hstop fun v => ensures_next.2 (s.emit_pc v)
  | hlt => exact ensures_next.2 (hstop _)

/-- A handler that stops a running core leaves pc as it is: the five that set pc do so on the paths that complete. -/
theorem exec_running_or_keeps_pc (i : Instr) {s : State} (hr : s.run = .running) :
    Ensures (exec i s) fun t => t.run = .running ∨ t.pc = s.pc := by
  cases hi : (Laws.FieldBits.expected i).2 with
  | false => exact fun t ht => .inr (exec_keeps_pc s hi t ht)
  | true =>
    have hstop (e : RunState) : (s.setRun e).run = .running ∨ (s.setRun e).pc = s.pc := .inr (s.setRun_pc e)
    have hjump {a : Byte} : Ensures (s.jumpToReg a) fun t => t.run = .running ∨ t.pc = s.pc :=
      State.jumpToReg_ensures hstop fun _ => .inl hr
    have hfall : Ensures s.fallThrough fun t => t.run = .running ∨ t.pc = s.pc :=
      State.fallThrough_ensures hstop fun _ => .inl hr
    cases i with
    | add | mul | and | or | xor | cmp | ldi | st | push | pop | prn | hlt => cases hi
    | jmp a => exact hjump
    | jeq a =>
      simp only [exec, execJeq]
      split
      · exact hjump
      · exact hfall
    | jne a =>
      simp only [exec, execJne]
      split
      · exact hfall
      · exact hjump
    | call a =>
      simp only [exec, execCall]
      exact State.withWrapadd_ensures hstop fun _ => State.moveSp_ensures hstop fun _ =>
        State.jumpToReg_ensures (fun _ => .inr rfl) fun _ => .inl hr
    | ret =>
      simp only [exec, execRet]
      exact State.moveSp_ensures hstop fun _ => ensures_next.2 (.inl hr)

/-- A step of a running core that stops it leaves pc as it is. The advance stops only after a handler that does not set
pc. -/
theorem step_running_or_keeps_pc {s : State} (hr : s.run = .running) :
    Ensures (step s) fun t => t.run = .running ∨ t.pc = s.pc := by
  rcases step_cases s with ⟨hn, e⟩ | ⟨-, -, e⟩ | ⟨l, -, -, -, e⟩ | ⟨l, i, u, -, -, hd, hu, e⟩ <;> rw [e]
  · exact absurd hr hn
  · exact ensures_next.2 (.inr (s.setRun_pc _))
  · exact ensures_next.2 (.inr (s.setRun_pc _))
  · rcases u.advance_cases l.op with ⟨hur, -, ea⟩ | ⟨-, hc, -, ea⟩ | ⟨-, ea⟩ <;> rw [ea]
    · exact ensures_next.2 (.inl hur)
    · have hbit : (Laws.FieldBits.expected i).2 = false := by rw [← fieldBits_of_decode hd, hc]
      exact ensures_next.2 (.inr (exec_keeps_pc s hbit u hu))
    · exact ensures_next.2 (exec_running_or_keeps_pc i hr u hu)

/-- Settles O58: pc is kept by `step_running_or_keeps_pc`, and the stopped core changes nothing more. -/
theorem stoppingStepKeepsPc : Obligations.StoppingStepKeepsPc :=
  fun _ t hr ht hstop => ⟨(step_running_or_keeps_pc hr t ht).resolve_left hstop, step_of_not_running hstop⟩

end Sys2Proof.Machine

/-! PROOFS. The statements about the ALU (41_alu.md): the five results (R120 to R124), the comparison (R125), and what the
ALU neither writes nor reads (R126). -/

namespace Sys2Proof.Machine

/-! ## The two-operand form (41_alu.md R126) -/

/-- Where both operands name registers, the result goes to the first. -/
theorem State.aluBinary_of_lt (s : State) (f : Byte → Byte → Byte) {a b : Byte} (ha : a.toNat < 8)
    (hb : b.toNat < 8) : s.aluBinary f a b =
      .next (s.setReg ⟨a.toNat, ha⟩ (f (s.reg ⟨a.toNat, ha⟩) (s.reg ⟨b.toNat, hb⟩))) := by
  rw [State.aluBinary, s.readRegs_of_lt ha hb, s.writeReg_of_lt ha]

/-- Where one of them does not, the core stops, and only `run` changes. -/
theorem State.aluBinary_of_ge (s : State) (f : Byte → Byte → Byte) {a b : Byte} (h : 8 ≤ a.toNat ∨ 8 ≤ b.toNat) :
    s.aluBinary f a b = .next (s.setRun (.guestUB .badRegisterIndex)) :=
  s.readRegs_of_ge h _

/-! ## The arithmetic results (41_alu.md R120, R121) -/

/-- Settles O26: `aluAdd` keeps the low 8 bits of the sum. -/
theorem addResult : Obligations.AddResult := by
  refine fun a b s => ⟨fun ha hb => ?_, s.aluBinary_of_ge aluAdd⟩
  rw [byte_ofNat_mod]
  exact s.aluBinary_of_lt aluAdd ha hb

/-- Settles O27: `aluMul` keeps the low 8 bits of the product. -/
theorem mulResult : Obligations.MulResult := by
  refine fun a b s => ⟨fun ha hb => ?_, s.aluBinary_of_ge aluMul⟩
  rw [byte_ofNat_mod]
  exact s.aluBinary_of_lt aluMul ha hb

/-! ## The bitwise results (41_alu.md R122 to R124) -/

/-- Settles O28: each bit of `aluAnd` is the conjunction of the operands' bits. -/
theorem andResult : Obligations.AndResult := fun _ _ s =>
  ⟨fun ha hb => ⟨_, s.aluBinary_of_lt aluAnd ha hb, fun _ _ => BitVec.getLsbD_and⟩, s.aluBinary_of_ge aluAnd⟩

/-- Settles O29: each bit of `aluOr` is the disjunction of the operands' bits. -/
theorem orResult : Obligations.OrResult := fun _ _ s =>
  ⟨fun ha hb => ⟨_, s.aluBinary_of_lt aluOr ha hb, fun _ _ => BitVec.getLsbD_or⟩, s.aluBinary_of_ge aluOr⟩

/-- Settles O30: each bit of `aluXor` says whether the operands' bits differ. -/
theorem xorResult : Obligations.XorResult := fun _ _ s =>
  ⟨fun ha hb => ⟨_, s.aluBinary_of_lt aluXor ha hb, fun _ _ => BitVec.getLsbD_xor⟩, s.aluBinary_of_ge aluXor⟩

/-! ## The comparison (41_alu.md R125) -/

/-- The comparison finds E, G or L, by the operands' order as numbers. -/
theorem compareFlags_cases (va vb : Byte) :
    (va.toNat = vb.toNat ∧ compareFlags va vb = 0x01#8) ∨
      (vb.toNat < va.toNat ∧ compareFlags va vb = 0x02#8) ∨
      (va.toNat < vb.toNat ∧ compareFlags va vb = 0x04#8) := by
  unfold compareFlags
  split
  · next heq => exact .inl ⟨congrArg BitVec.toNat heq, rfl⟩
  · next hne =>
    have hne' : va.toNat ≠ vb.toNat := fun e => hne (BitVec.eq_of_toNat_eq e)
    split
    · next hgt => exact .inr (.inl ⟨hgt, rfl⟩)
    · next hle => exact .inr (.inr ⟨by omega, rfl⟩)

/-- Which byte FL gets tells the order of the operands, since the three bytes differ. -/
theorem compareFlags_iff (va vb : Byte) :
    (compareFlags va vb = 0x01#8 ↔ va.toNat = vb.toNat) ∧
      (compareFlags va vb = 0x02#8 ↔ vb.toNat < va.toNat) ∧
      (compareFlags va vb = 0x04#8 ↔ va.toNat < vb.toNat) := by
  rcases compareFlags_cases va vb with ⟨h, e⟩ | ⟨h, e⟩ | ⟨h, e⟩ <;> rw [e] <;> simp <;> omega

theorem exec_cmp (s : State) (a b : Byte) :
    exec (.cmp a b) s = s.readRegs a b fun va vb => .next (s.setFl (compareFlags va vb)) := rfl

/-- CMP whose operands both name registers writes FL, and does nothing else. -/
theorem exec_cmp_of_lt (s : State) {a b : Byte} (ha : a.toNat < 8) (hb : b.toNat < 8) :
    exec (.cmp a b) s = .next (s.setFl (compareFlags (s.reg ⟨a.toNat, ha⟩) (s.reg ⟨b.toNat, hb⟩))) := by
  rw [exec_cmp, s.readRegs_of_lt ha hb]

theorem exec_cmp_of_ge (s : State) {a b : Byte} (h : 8 ≤ a.toNat ∨ 8 ≤ b.toNat) :
    exec (.cmp a b) s = .next (s.setRun (.guestUB .badRegisterIndex)) := by
  rw [exec_cmp, s.readRegs_of_ge h]

/-- Everything CMP can do. -/
theorem exec_cmp_cases (s : State) (a b : Byte) :
    (∃ (ha : a.toNat < 8) (hb : b.toNat < 8), exec (.cmp a b) s =
        .next (s.setFl (compareFlags (s.reg ⟨a.toNat, ha⟩) (s.reg ⟨b.toNat, hb⟩)))) ∨
      ((8 ≤ a.toNat ∨ 8 ≤ b.toNat) ∧ exec (.cmp a b) s = .next (s.setRun (.guestUB .badRegisterIndex))) := by
  rw [exec_cmp]
  exact s.readRegs_cases a b _

/-- Settles O31: the byte that CMP writes is the one that the order of its operands calls for. -/
theorem cmpResult : Obligations.CmpResult := fun _ _ s =>
  ⟨fun ha hb => ⟨_, exec_cmp_of_lt s ha hb, compareFlags_iff _ _⟩, exec_cmp_of_ge s⟩

/-! ## What the ALU leaves alone (41_alu.md R126) -/

/-- The five operations but CMP are the two-operand form of one function each. -/
theorem exec_eq_aluBinary {i : Instr} {a b : Byte}
    (hi : i ∈ [Instr.add a b, .mul a b, .and a b, .or a b, .xor a b]) :
    ∃ f, ∀ s : State, exec i s = s.aluBinary f a b := by
  revert i
  simp only [List.forall_mem_cons]
  exact ⟨⟨aluAdd, fun _ => rfl⟩, ⟨aluMul, fun _ => rfl⟩, ⟨aluAnd, fun _ => rfl⟩, ⟨aluOr, fun _ => rfl⟩,
    ⟨aluXor, fun _ => rfl⟩, nofun⟩

/-- The handler of every instruction but CMP leaves FL as it is, whether it stops or not. -/
theorem exec_keeps_fl {i : Instr} (s : State) (hi : ∀ a b : Byte, i ≠ .cmp a b) :
    Ensures (exec i s) fun t => t.fl = s.fl := by
  have hstop (e : RunState) : (s.setRun e).fl = s.fl := s.setRun_fl e
  have hjump {a : Byte} : Ensures (s.jumpToReg a) fun t => t.fl = s.fl := State.jumpToReg_ensures hstop s.setPc_fl
  have hfall : Ensures s.fallThrough fun t => t.fl = s.fl := State.fallThrough_ensures hstop s.setPc_fl
  cases i with
  | add | mul | and | or | xor => exact State.aluBinary_ensures hstop s.setReg_fl
  | cmp a b => exact absurd rfl (hi a b)
  | jmp a => exact hjump
  | jeq a =>
    simp only [exec, execJeq]
    split
    · exact hjump
    · exact hfall
  | jne a =>
    simp only [exec, execJne]
    split
    · exact hfall
    · exact hjump
  | call a =>
    simp only [exec, execCall]
    exact State.withWrapadd_ensures hstop fun _ => State.moveSp_ensures hstop fun _ =>
      State.jumpToReg_ensures (State.setRun_fl _) (State.setPc_fl _)
  | ret =>
    simp only [exec, execRet]
    exact State.moveSp_ensures hstop fun _ => ensures_next.2 rfl
  | ldi a b => exact State.writeReg_ensures hstop fun r => ensures_next.2 (s.setReg_fl r b)
  | st a b =>
    simp only [exec, execSt]
    exact State.readRegs_ensures hstop fun _ _ => ensures_next.2 (s.memWrite_fl _ _)
  | push a =>
    simp only [exec, execPush]
    exact State.moveSp_ensures hstop fun _ =>
      State.readReg_ensures (State.setRun_fl _) fun _ => ensures_next.2 rfl
  | pop a =>
    simp only [exec, execPop]
    exact State.writeReg_ensures hstop fun _ =>
      State.moveSp_ensures (State.setRun_fl _) fun _ => ensures_next.2 rfl
  | prn a =>
    simp only [exec, execPrn]
    exact State.readReg_ensures hstop fun v => ensures_next.2 (s.emit_fl v)
  | hlt => exact ensures_next.2 (hstop _)

/-- Settles O32. The state after is `s` with one register or FL written, or with the stop recorded, so the rest is the
old state's. The run from another FL takes the same case, as the operands alone decide it, and has the same operands'
bytes. -/
theorem aluWritesOnlyItsDestinationAndReadsNoFlag : Obligations.AluWritesOnlyItsDestinationAndReadsNoFlag := by
  refine fun a b s t => ⟨fun i hi ht => ?_, fun ht => ?_, fun i hi ht => exec_keeps_fl s hi t ht⟩
  · obtain ⟨f, hf⟩ := exec_eq_aluBinary hi
    simp only [hf] at ht ⊢
    rcases s.aluBinary_cases f a b with ⟨ha, hb, e⟩ | ⟨h, e⟩ <;> obtain rfl := Host.Outcome.next.inj (e.symm.trans ht)
    · have hother (q : Fin 8) (hq : q.val ≠ a.toNat) : (⟨a.toNat, ha⟩ : Fin 8) ≠ q :=
        fun hr => hq (congrArg Fin.val hr).symm
      exact ⟨fun q hq => s.setReg_reg_of_ne (hother q hq) _, rfl, rfl, rfl, rfl, .inl rfl, fun _ => rfl,
        fun v => (s.setFl v).aluBinary_of_lt f ha hb⟩
    · exact ⟨fun _ _ => rfl, rfl, rfl, rfl, rfl, .inr rfl, fun _ => rfl, fun v => (s.setFl v).aluBinary_of_ge f h⟩
  · rcases exec_cmp_cases s a b with ⟨ha, hb, e⟩ | ⟨h, e⟩ <;> obtain rfl := Host.Outcome.next.inj (e.symm.trans ht)
    · exact ⟨fun _ => rfl, rfl, rfl, rfl, .inl rfl, fun _ => rfl,
        fun v => ⟨fun _ => exec_cmp_of_lt (s.setFl v) ha hb, fun h => by omega⟩⟩
    · exact ⟨fun _ => rfl, rfl, rfl, rfl, .inr rfl, fun _ => rfl,
        fun v => ⟨fun ⟨ha, hb⟩ => by omega, fun _ => exec_cmp_of_ge (s.setFl v) h⟩⟩

end Sys2Proof.Machine

/-! PROOFS. The statements about the PC-setting instructions (42_control.md): the jumps and branches (R140 to R142),
CALL (R144) and RET (R145). -/

namespace Sys2Proof.Machine

section
variable (s : State)

/-! ## A jump through a register, and a branch taken or not (42_control.md R141 to R143) -/

theorem State.jumpToReg_of_lt {a : Byte} (h : a.toNat < 8) :
    s.jumpToReg a = .next (s.setPc (s.reg ⟨a.toNat, h⟩)) :=
  s.readReg_of_lt h _

theorem State.jumpToReg_of_ge {a : Byte} (h : 8 ≤ a.toNat) :
    s.jumpToReg a = .next (s.setRun (.guestUB .badRegisterIndex)) :=
  s.readReg_of_ge h _

/-- The address two bytes on, past an instruction of one operand, written as the spec writes it. -/
theorem byte_add_two (a : Byte) : a + BitVec.ofInt 8 2 = BitVec.ofNat 8 ((a.toNat + 2) % 256) := by
  rw [byte_ofNat_mod, ← byte_add_ofNat]
  rfl

theorem State.fallThrough_of_ok (h : s.wrapPolicy = .wrap ∨ s.pc.toNat ≤ 253) :
    s.fallThrough = .next (s.setPc (BitVec.ofNat 8 ((s.pc.toNat + 2) % 256))) := by
  rw [← byte_add_two]
  exact s.withWrapadd_of_ok _ (h.imp_right fun _ => by omega)

theorem State.fallThrough_of_end (hp : s.wrapPolicy = .fault) (h : 254 ≤ s.pc.toNat) :
    s.fallThrough = .next (s.setRun (.guestUB .addressOutOfRange)) :=
  s.withWrapadd_of_out _ hp (by omega)

theorem exec_jeq_of_set (a : Byte) (h : s.fl.getLsbD 0 = true) : exec (.jeq a) s = s.jumpToReg a := if_pos h

theorem exec_jeq_of_clear (a : Byte) (h : s.fl.getLsbD 0 = false) : exec (.jeq a) s = s.fallThrough :=
  if_neg (Bool.eq_false_iff.1 h)

theorem exec_jne_of_set (a : Byte) (h : s.fl.getLsbD 0 = true) : exec (.jne a) s = s.fallThrough := if_pos h

theorem exec_jne_of_clear (a : Byte) (h : s.fl.getLsbD 0 = false) : exec (.jne a) s = s.jumpToReg a :=
  if_neg (Bool.eq_false_iff.1 h)

/-! ## A move of the stack pointer, down for a push and up for a pop (42_control.md R144, R145) -/

theorem State.moveSp_down_of_ok (cont : State → Result) (h : s.wrapPolicy = .wrap ∨ s.sp ≠ 0#8) :
    s.moveSp (-1) cont = cont (s.setReg spIndex (s.sp - 1#8)) := by
  rw [BitVec.sub_eq_add_neg]
  exact s.withWrapadd_of_ok _ (h.imp_right fun _ => by bv_omega)

theorem State.moveSp_down_of_zero (cont : State → Result) (hp : s.wrapPolicy = .fault) (h : s.sp = 0#8) :
    s.moveSp (-1) cont = .next (s.setRun (.guestUB .addressOutOfRange)) :=
  s.withWrapadd_of_out _ hp (by simp [h])

theorem State.moveSp_up_of_ok (cont : State → Result) (h : s.wrapPolicy = .wrap ∨ s.sp ≠ 255#8) :
    s.moveSp 1 cont = cont (s.setReg spIndex (s.sp + 1#8)) :=
  s.withWrapadd_of_ok _ (h.imp_right fun _ => by bv_omega)

theorem State.moveSp_up_of_top (cont : State → Result) (hp : s.wrapPolicy = .fault) (h : s.sp = 255#8) :
    s.moveSp 1 cont = .next (s.setRun (.guestUB .addressOutOfRange)) :=
  s.withWrapadd_of_out _ hp (by simp [h])

/-- The push stores at the stack pointer as it has just been set. -/
theorem State.storeAtSp_setReg_sp (v w : Byte) :
    (s.setReg spIndex v).storeAtSp w = (s.setReg spIndex v).memWrite v w := by
  rw [State.storeAtSp, State.setReg_sp]

/-! ## CALL and RET (42_control.md R144, R145) -/

theorem exec_call (a : Byte) : exec (.call a) s =
    s.withWrapadd s.pc 2 fun ret => s.moveSp (-1) fun s1 => (s1.storeAtSp ret).jumpToReg a := rfl

/-- Where both sums may be taken, CALL jumps from the state that the push of `pc + 2` leaves. -/
theorem exec_call_of_ok (a : Byte) (h : s.wrapPolicy = .wrap ∨ (s.pc.toNat ≤ 253 ∧ s.sp ≠ 0#8)) :
    exec (.call a) s = ((s.setReg spIndex (s.sp - 1#8)).memWrite (s.sp - 1#8)
      (BitVec.ofNat 8 ((s.pc.toNat + 2) % 256))).jumpToReg a := by
  have hpc : s.wrapPolicy = .wrap ∨ s.pc.toNat ≤ 253 := h.imp_right And.left
  have hsp : s.wrapPolicy = .wrap ∨ s.sp ≠ 0#8 := h.imp_right And.right
  rw [exec_call, s.withWrapadd_of_ok _ (hpc.imp_right fun _ => by omega), byte_add_two, s.moveSp_down_of_ok _ hsp,
    s.storeAtSp_setReg_sp]

/-- Under `fault` CALL stops where either sum passes the end of memory. -/
theorem exec_call_of_out (a : Byte) (hp : s.wrapPolicy = .fault) (h : 254 ≤ s.pc.toNat ∨ s.sp = 0#8) :
    exec (.call a) s = .next (s.setRun (.guestUB .addressOutOfRange)) := by
  rw [exec_call]
  rcases Nat.lt_or_ge s.pc.toNat 254 with hlt | hge
  · rw [s.withWrapadd_of_ok _ (.inr (by omega)), s.moveSp_down_of_zero _ hp (h.resolve_left (Nat.not_le.2 hlt))]
  · exact s.withWrapadd_of_out _ hp (by omega)

theorem exec_ret : exec .ret s = s.moveSp 1 fun s1 => .next (s1.setPc s.stackTop) := rfl

end

/-! ## The results -/

/-- Settles O33: JMP is the jump, whose register exists or does not. -/
theorem jmpResult : Obligations.JmpResult := fun _ s => ⟨s.jumpToReg_of_lt, s.jumpToReg_of_ge⟩

/-- Settles O35: E set makes JEQ the jump, and E clear the fall-through, which does not look at the operand. -/
theorem jeqResult : Obligations.JeqResult := fun a s =>
  ⟨fun ha he => (exec_jeq_of_set s a he).trans (s.jumpToReg_of_lt ha),
    fun ha he => (exec_jeq_of_set s a he).trans (s.jumpToReg_of_ge ha),
    fun he h => (exec_jeq_of_clear s a he).trans (s.fallThrough_of_ok h),
    fun he hp h => (exec_jeq_of_clear s a he).trans (s.fallThrough_of_end hp h)⟩

/-- Settles O36: as JEQ, with E's two values exchanged. -/
theorem jneResult : Obligations.JneResult := fun a s =>
  ⟨fun ha he => (exec_jne_of_clear s a he).trans (s.jumpToReg_of_lt ha),
    fun ha he => (exec_jne_of_clear s a he).trans (s.jumpToReg_of_ge ha),
    fun he h => (exec_jne_of_set s a he).trans (s.fallThrough_of_ok h),
    fun he hp h => (exec_jne_of_set s a he).trans (s.fallThrough_of_end hp h)⟩

/-- Settles O37: the jump that follows the push reads the register, R7 too, in the state that the push leaves. -/
theorem callResult : Obligations.CallResult := fun a s =>
  ⟨fun h => ⟨fun ha => (exec_call_of_ok s a h).trans (State.jumpToReg_of_lt _ ha),
      fun ha => (exec_call_of_ok s a h).trans (State.jumpToReg_of_ge _ ha)⟩,
    fun ⟨hp, h⟩ => exec_call_of_out s a hp h⟩

/-- Settles O38: the byte that pc gets is read before SP moves, and the stop comes before pc is written. -/
theorem retResult : Obligations.RetResult := fun s =>
  ⟨fun h => (exec_ret s).trans (s.moveSp_up_of_ok _ h),
    fun ⟨hp, h⟩ => (exec_ret s).trans (s.moveSp_up_of_top _ hp h)⟩

end Sys2Proof.Machine

/-! PROOFS. The statements about data movement, the stack, the output and halt (43_data.md): LDI and ST (R160, R161), PUSH
and POP (R162, R163), PRN (R164) and HLT (R165). -/

namespace Sys2Proof.Machine

section
variable (s : State)

/-! ## ST and PRN (43_data.md R161, R164) -/

theorem exec_st (a b : Byte) : exec (.st a b) s = s.readRegs a b fun addr v => .next (s.memWrite addr v) := rfl

theorem exec_st_of_ge {a b : Byte} (h : 8 ≤ a.toNat ∨ 8 ≤ b.toNat) :
    exec (.st a b) s = .next (s.setRun (.guestUB .badRegisterIndex)) := by
  rw [exec_st, s.readRegs_of_ge h]

theorem exec_prn (a : Byte) : exec (.prn a) s = s.readReg a fun v => .next (s.emit v) := rfl

/-! ## PUSH (43_data.md R162) -/

theorem exec_push (a : Byte) : exec (.push a) s =
    s.moveSp (-1) fun s1 => s1.readReg a fun v => .next (s1.storeAtSp v) := rfl

/-- Where SP may go down, PUSH reads its register from the state that the decrement leaves. -/
theorem exec_push_of_ok (a : Byte) (h : s.wrapPolicy = .wrap ∨ s.sp ≠ 0#8) :
    exec (.push a) s = (s.setReg spIndex (s.sp - 1#8)).readReg a fun v =>
      .next ((s.setReg spIndex (s.sp - 1#8)).memWrite (s.sp - 1#8) v) := by
  simp only [exec_push, s.moveSp_down_of_ok _ h, State.storeAtSp_setReg_sp]

/-! ## POP (43_data.md R163) -/

theorem exec_pop (a : Byte) : exec (.pop a) s = s.writeReg a s.stackTop fun s1 => s1.moveSp 1 .next := rfl

/-- POP to a register that exists loads it, and then raises SP from where the load left it. -/
theorem exec_pop_of_lt {a : Byte} (h : a.toNat < 8) :
    exec (.pop a) s = (s.setReg ⟨a.toNat, h⟩ (s.memRead s.sp)).moveSp 1 .next := by
  rw [exec_pop, s.writeReg_of_lt h, State.stackTop]

theorem exec_pop_of_ge {a : Byte} (h : 8 ≤ a.toNat) :
    exec (.pop a) s = .next (s.setRun (.guestUB .badRegisterIndex)) := by
  rw [exec_pop, s.writeReg_of_ge h]

/-- POP to a register other than SP, which then goes up from where it stood. -/
theorem exec_pop_of_ne_sp {a : Byte} (h : a.toNat < 8) (hne : a.toNat ≠ 7) :
    (s.wrapPolicy = .wrap ∨ s.sp ≠ 255#8 → exec (.pop a) s =
      .next ((s.setReg ⟨a.toNat, h⟩ (s.memRead s.sp)).setReg spIndex (s.sp + 1#8))) ∧
    (s.wrapPolicy = .fault ∧ s.sp = 255#8 → exec (.pop a) s =
      .next ((s.setReg ⟨a.toNat, h⟩ (s.memRead s.sp)).setRun (.guestUB .addressOutOfRange))) := by
  have hsp : (s.setReg ⟨a.toNat, h⟩ (s.memRead s.sp)).sp = s.sp :=
    State.sp_setReg_of_ne fun e => hne (congrArg Fin.val e)
  rw [exec_pop_of_lt s h]
  refine ⟨fun hok => ?_, fun ⟨hp, htop⟩ => State.moveSp_up_of_top _ _ hp (hsp.trans htop)⟩
  rw [State.moveSp_up_of_ok _ _ (by rwa [hsp]), hsp]

/-- POP R7: SP goes up from the byte that the load put in it. -/
theorem exec_pop_sp :
    (s.wrapPolicy = .wrap ∨ s.memRead s.sp ≠ 255#8 → exec (.pop 7#8) s =
      .next (s.setReg spIndex (s.memRead s.sp + 1#8))) ∧
    (s.wrapPolicy = .fault ∧ s.memRead s.sp = 255#8 → exec (.pop 7#8) s =
      .next ((s.setReg spIndex (s.memRead s.sp)).setRun (.guestUB .addressOutOfRange))) := by
  have hload : exec (.pop 7#8) s = (s.setReg spIndex (s.memRead s.sp)).moveSp 1 .next :=
    exec_pop_of_lt s (by decide)
  rw [hload]
  refine ⟨fun hok => ?_, fun ⟨hp, htop⟩ => State.moveSp_up_of_top _ _ hp ((s.setReg_sp _).trans htop)⟩
  rw [State.moveSp_up_of_ok _ _ (by rwa [s.setReg_sp]), s.setReg_sp, s.setReg_setReg]

end

/-! ## A state that a step leaves as it is -/

/-- No number of steps leaves a state that one step does not leave. -/
theorem core_run_of_step_eq {s : State} (h : step s = .next s) (k : Nat) :
    Host.Core.run Sys2Proof.core k s = .next s := by
  induction k with
  | zero => rfl
  | succ k ih =>
    have hstep : Sys2Proof.core.step s = .next s := h
    simp only [Host.Core.run, hstep]
    exact ih

/-! ## The results -/

/-- Settles O39: LDI is the register write, and nothing looks at the immediate. -/
theorem ldiResult : Obligations.LdiResult := fun _ b s =>
  ⟨fun ha => s.writeReg_of_lt ha b .next, fun ha => s.writeReg_of_ge ha b .next⟩

/-- Settles O40: the address is read from the first register, and the byte from the second. -/
theorem stResult : Obligations.StResult := fun _ _ s => ⟨exec_st_of_lt s, exec_st_of_ge s⟩

/-- Settles O41: the register, R7 too, is read in the state that the decrement leaves, and the index is checked there. -/
theorem pushResult : Obligations.PushResult := fun a s =>
  ⟨fun h => ⟨fun ha => (exec_push_of_ok s a h).trans (State.readReg_of_lt _ ha _),
      fun ha => (exec_push_of_ok s a h).trans (State.readReg_of_ge _ ha _)⟩,
    fun ⟨hp, h⟩ => (exec_push s a).trans (s.moveSp_down_of_zero _ hp h)⟩

/-- Settles O42: the increment starts from SP as the load leaves it, which is another byte for R7 alone. -/
theorem popResult : Obligations.PopResult := by
  refine fun a s => ⟨exec_pop_of_ne_sp s, fun ha => ?_, exec_pop_of_ge s⟩
  obtain rfl : a = 7#8 := BitVec.eq_of_toNat_eq ha
  obtain ⟨hok, hstop⟩ := exec_pop_sp s
  refine ⟨hok, fun h => ?_⟩
  rw [hstop h, h.2]
  rfl

/-- Settles O43: PRN emits the byte of the register that it reads, or stops before it emits. -/
theorem prnResult : Obligations.PrnResult := fun a s =>
  ⟨fun ha => (exec_prn s a).trans (s.readReg_of_lt ha _), fun ha => (exec_prn s a).trans (s.readReg_of_ge ha _)⟩

/-- Settles O44: the advance and every later step leave alone a core that is not running. -/
theorem hltResult : Obligations.HltResult := by
  refine ⟨fun _ => rfl, fun s l hr hf hd => ?_, rfl⟩
  have hstopped : (s.setRun .haltedOk).run ≠ .running := nofun
  refine ⟨?_, core_run_of_step_eq (step_of_not_running hstopped)⟩
  calc step s = advanceAfter l.op (exec .hlt s) := step_of_running hr hf hd
    _ = .next (s.setRun .haltedOk) := State.advance_of_kept (.inl hstopped)

end Sys2Proof.Machine

/-! PROOFS. The statements about the exceptions (60_exceptions.md): no event is recoverable (R182), and the exit statuses
(R186). -/

namespace Sys2Proof.Machine

/-! ## A stopped core (60_exceptions.md R182) -/

/-- A core that is not running, whatever stopped it, stays as it is for any number of steps. -/
theorem core_run_of_not_running {s : State} (hr : s.run ≠ .running) (k : Nat) :
    Host.Core.run Sys2Proof.core k s = .next s :=
  core_run_of_step_eq (step_of_not_running hr) k

/-- Settles O11: either event is a run state other than running. -/
theorem eventsAreForever : Obligations.EventsAreForever := by
  intro s k hevent
  have hr : s.run ≠ .running := by
    rcases hevent with ⟨op, addr, h⟩ | ⟨kind, h⟩ <;> rw [h] <;> nofun
  exact core_run_of_not_running hr k

/-! ## The exit codes (60_exceptions.md R186, 92_eei_decisions.md D12) -/

theorem exitDecodeError_ne_zero : Config.exitDecodeError ≠ 0 := Nat.succ_ne_zero _

theorem exitGuestUB_ne_zero : Config.exitGuestUB ≠ 0 := Nat.succ_ne_zero _

/-- A file-not-found code below the decode-error code is the free choice, and one above it is that choice moved up. -/
theorem exitFileNotFound_cases :
    Config.exitFileNotFound = Config.freeExitChoice 1 + 1 ∧ Config.exitFileNotFound < Config.exitDecodeError ∨
      Config.exitFileNotFound = Config.freeExitChoice 1 + 2 ∧ Config.exitDecodeError < Config.exitFileNotFound := by
  unfold Config.exitFileNotFound
  dsimp only
  split
  case isTrue hlt => exact .inl ⟨rfl, hlt⟩
  case isFalse hge => exact .inr ⟨rfl, Nat.lt_succ_of_le (Nat.not_lt.1 hge)⟩

theorem exitFileNotFound_ne_zero : Config.exitFileNotFound ≠ 0 := by
  rcases exitFileNotFound_cases with ⟨h, -⟩ | ⟨h, -⟩ <;> rw [h] <;> exact Nat.succ_ne_zero _

theorem exitDecodeError_ne_exitFileNotFound : Config.exitDecodeError ≠ Config.exitFileNotFound := by
  rcases exitFileNotFound_cases with ⟨-, hlt⟩ | ⟨-, hgt⟩
  · exact hlt.ne'
  · exact hgt.ne

/-- Settles O57: the status depends on the kind of stop alone, and the codes are the three named constants. -/
theorem exitStatusesStayDistinguishable : Obligations.ExitStatusesStayDistinguishable :=
  ⟨rfl, rfl, Config.exitDecodeError, Config.exitFileNotFound, Config.exitGuestUB, fun _ _ => rfl, rfl, fun _ => rfl,
    exitDecodeError_ne_zero, exitFileNotFound_ne_zero, exitGuestUB_ne_zero, exitDecodeError_ne_exitFileNotFound⟩

end Sys2Proof.Machine

/-! PROOFS. The two round trips between the encoder and the decoder (30_encoding.md sections 1 to 3), and the opcodes
that are decoded (30_encoding.md section 3, 40_cycle.md R104, R105). -/

namespace Sys2Proof.Machine

/-! ## The round trips (30_encoding.md R70, R73, R80) -/

/-- Settles O1, format by format: the bytes given fix the opcode and the operand bytes that the instruction has, and
the row that the decoder finds for the opcode does not use the others. -/
theorem decodeOfEncodeIsTheInstruction : Obligations.DecodeOfEncodeIsTheInstruction := by
  rintro i ⟨op, a, b⟩ ⟨rest, h⟩
  cases i with
  | ret | hlt =>
    obtain ⟨rfl, -⟩ := List.cons.inj h
    simp [decode, opAlu, lookupOpcode, generalTable]
  | jmp | jeq | jne | call | push | pop | prn =>
    obtain ⟨rfl, hb⟩ := List.cons.inj h
    obtain ⟨rfl, -⟩ := List.cons.inj hb
    simp [decode, opAlu, lookupOpcode, generalTable]
  | add | mul | and | or | xor | cmp | ldi | st =>
    obtain ⟨rfl, hb⟩ := List.cons.inj h
    obtain ⟨rfl, hc⟩ := List.cons.inj hb
    obtain ⟨rfl, -⟩ := List.cons.inj hc
    simp [decode, opAlu, lookupOpcode, aluTable, generalTable]

/-- A row of the tables forms instructions that encode to its opcode and as many of the two bytes as its length
leaves. -/
theorem encode_of_row {row : Byte × Former} (h : row ∈ aluTable ++ generalTable) (a b : Byte) :
    encode (row.2 a b) = [row.1, a, b].take (insnLength row.1) := by
  revert row
  simp only [aluTable, generalTable, List.cons_append, List.nil_append, List.forall_mem_cons]
  exact ⟨rfl, rfl, rfl, rfl, rfl, rfl, rfl, rfl, rfl, rfl, rfl, rfl, rfl, rfl, rfl, rfl, rfl, nofun⟩

/-- Settles O2: what is decoded is formed by the row of the opcode fetched, from the two bytes after it. -/
theorem encodeOfDecodeIsTheBytes : Obligations.EncodeOfDecodeIsTheBytes := by
  intro l i h
  obtain ⟨f, hrow, rfl⟩ := decode_instr_row h
  exact encode_of_row hrow l.a l.b

/-! ## The opcodes that are decoded (40_cycle.md R104, R105) -/

/-- The opcode of every row is decoded, whatever bytes follow it. -/
theorem decode_of_row {row : Byte × Former} (h : row ∈ aluTable ++ generalTable) (a b : Byte) :
    decode ⟨row.1, a, b⟩ = .instr (row.2 a b) := by
  apply decodeOfEncodeIsTheInstruction
  rw [encode_of_row h]
  exact List.take_prefix _ _

/-- Settles O4. The 17 bytes are the opcodes of the two tables' rows; a byte that is none of them is not decoded, as it
would be some row's opcode; and `opAlu`, which chooses the miss, is bit 5. -/
theorem onlyTheSeventeenOpcodesDecode : Obligations.OnlyTheSeventeenOpcodesDecode := by
  intro l
  refine ⟨fun hop => ?_, fun hop => ?_⟩
  · obtain ⟨row, hrow, hrowop⟩ : ∃ row ∈ aluTable ++ generalTable, row.1 = l.op := List.mem_map.1 hop
    have hd : decode l = .instr (row.2 l.a l.b) := by simpa [hrowop] using decode_of_row hrow l.a l.b
    simp [hd, Decoded.instr?]
  · rcases decode_cases l with ⟨i, hd⟩ | ⟨hb, hd⟩ | ⟨hb, hd⟩
    · obtain ⟨f, hrow, -⟩ := decode_instr_row hd
      exact absurd (List.mem_map_of_mem (f := Prod.fst) hrow) hop
    · exact hd.trans (if_neg (Bool.eq_false_iff.1 hb)).symm
    · exact hd.trans (if_pos hb).symm

/-- Settles O5: eight closed words, which the decoder answers one by one. -/
theorem specWordsDecode : Obligations.SpecWordsDecode := by
  unfold Obligations.SpecWordsDecode
  decide

end Sys2Proof.Machine

/-! PROOFS. What each handler and each step may change, said once, and what follows for every step: the invariant, the
wrap policy, FL, the output and the stops (10_state.md, 60_exceptions.md section 1), and the frames of the data and
control instructions (42_control.md, 43_data.md). -/

namespace Sys2Proof.Machine

/-! ## What a handler may change -/

/-- The registers that the handler of an instruction may write: its destination, and SP where it pushes or pops. -/
def WritesReg (i : Instr) (r : Fin 8) : Prop :=
  match i with
  | .add a _ | .mul a _ | .and a _ | .or a _ | .xor a _ | .ldi a _ => a.toNat = r.val
  | .pop a => a.toNat = r.val ∨ r = spIndex
  | .push _ | .call _ | .ret => r = spIndex
  | .cmp _ _ | .jmp _ | .jeq _ | .jne _ | .st _ _ | .prn _ | .hlt => False

/-- The address that the handler of an instruction may store to, from the state it starts in. -/
def storeAddress (i : Instr) (s : State) : Option Byte :=
  match i with
  | .st a _ => (regIndex a).map s.reg
  | .push _ | .call _ => wrapadd s.wrapPolicy s.sp (-1)
  | _ => none

/-- The instructions whose handler uses `wrapadd`, and so may find an address out of range (20_memory.md R53). -/
def AddsAddress (i : Instr) : Prop :=
  match i with
  | .jeq _ | .jne _ | .call _ | .ret | .push _ | .pop _ => True
  | _ => False

/-- The run states that the handler of an instruction may stop in, from the state it starts in. -/
def StopsIn (i : Instr) (s : State) (r : RunState) : Prop :=
  (i = .hlt ∧ r = .haltedOk) ∨
    ((∃ a ∈ regOperands i, 8 ≤ a.toNat) ∧ r = .guestUB .badRegisterIndex) ∨
      (AddsAddress i ∧ s.wrapPolicy = .fault ∧ r = .guestUB .addressOutOfRange)

/-- `t` differs from `s` only in what the handler of `i`, started in `s`, may change. What it leaves of pc and FL
`exec_keeps_pc` and `exec_keeps_fl` say. -/
structure HandlerFrame (i : Instr) (s t : State) : Prop where
  reg : ∀ q, ¬WritesReg i q → t.reg q = s.reg q
  memRead : ∀ adr, storeAddress i s ≠ some adr → t.memRead adr = s.memRead adr
  canonical : Memory.wf s.mem → Memory.wf t.mem
  out : (∀ a, i ≠ .prn a) → t.out = s.out
  wrapPolicy : t.wrapPolicy = s.wrapPolicy
  run : t.run = s.run ∨ StopsIn i s t.run

/-! ### The updates that stay inside the frame -/

namespace HandlerFrame

section
variable {i : Instr} {s₀ s : State}

theorem refl (i : Instr) (s : State) : HandlerFrame i s s where
  reg _ _ := rfl
  memRead _ _ := rfl
  canonical h := h
  out _ := rfl
  wrapPolicy := rfl
  run := .inl rfl

variable (h : HandlerFrame i s₀ s)
include h

theorem setReg {r : Fin 8} (hr : WritesReg i r) (v : Byte) : HandlerFrame i s₀ (s.setReg r v) :=
  { h with
    reg q hq := by
      have hne : r ≠ q := fun e => hq (e ▸ hr)
      rw [s.setReg_reg_of_ne hne, h.reg q hq] }

theorem setPc (v : Byte) : HandlerFrame i s₀ (s.setPc v) := { h with }

theorem setFl (v : Byte) : HandlerFrame i s₀ (s.setFl v) := { h with }

theorem memWrite {adr : Byte} (hadr : storeAddress i s₀ = some adr) (v : Byte) :
    HandlerFrame i s₀ (s.memWrite adr v) :=
  { h with
    memRead b hb := by
      have hne : b ≠ adr := fun e => hb (e ▸ hadr)
      rw [s.memWrite_memRead_of_ne hne, h.memRead b hb]
    canonical hs := Memory.write_wf (h.canonical hs) adr v }

theorem emit {a : Byte} (hi : i = .prn a) (v : Byte) : HandlerFrame i s₀ (s.emit v) :=
  { h with out := fun hn => absurd hi (hn a) }

theorem setRun {r : RunState} (hr : StopsIn i s₀ r) : HandlerFrame i s₀ (s.setRun r) := { h with run := .inr hr }

/-! ### The shared operations stay inside the frame if what follows them does -/

theorem readReg {a : Byte} (ha : a ∈ regOperands i) {cont : Byte → Result}
    (hc : ∀ r, regIndex a = some r → Ensures (cont (s.reg r)) (HandlerFrame i s₀)) :
    Ensures (s.readReg a cont) (HandlerFrame i s₀) := by
  rcases s.readReg_cases a cont with ⟨hlt, e⟩ | ⟨hge, e⟩ <;> rw [e]
  · exact hc _ (regIndex_of_lt hlt)
  · exact ensures_next.2 (h.setRun (.inr (.inl ⟨⟨a, ha, hge⟩, rfl⟩)))

theorem writeReg {a : Byte} (ha : a ∈ regOperands i) (hw : ∀ r : Fin 8, a.toNat = r.val → WritesReg i r) (v : Byte)
    {cont : State → Result} (hc : ∀ u, HandlerFrame i s₀ u → Ensures (cont u) (HandlerFrame i s₀)) :
    Ensures (s.writeReg a v cont) (HandlerFrame i s₀) := by
  rcases s.writeReg_cases a v cont with ⟨hlt, e⟩ | ⟨hge, e⟩ <;> rw [e]
  · exact hc _ (h.setReg (hw _ rfl) v)
  · exact ensures_next.2 (h.setRun (.inr (.inl ⟨⟨a, ha, hge⟩, rfl⟩)))

theorem withWrapadd (hi : AddsAddress i) (a : Byte) (k : Int) {cont : Byte → Result}
    (hc : ∀ v, wrapadd s.wrapPolicy a k = some v → Ensures (cont v) (HandlerFrame i s₀)) :
    Ensures (s.withWrapadd a k cont) (HandlerFrame i s₀) := by
  unfold State.withWrapadd
  cases hv : wrapadd s.wrapPolicy a k with
  | some v => exact hc v hv
  | none =>
    have hp : s₀.wrapPolicy = .fault := h.wrapPolicy ▸ (wrapadd_eq_none hv).1
    exact ensures_next.2 (h.setRun (.inr (.inr ⟨hi, hp, rfl⟩)))

theorem moveSp (hi : AddsAddress i) (hw : WritesReg i spIndex) (k : Int) {cont : State → Result}
    (hc : ∀ v, wrapadd s.wrapPolicy s.sp k = some v → HandlerFrame i s₀ (s.setReg spIndex v) →
      Ensures (cont (s.setReg spIndex v)) (HandlerFrame i s₀)) :
    Ensures (s.moveSp k cont) (HandlerFrame i s₀) :=
  h.withWrapadd hi s.sp k fun v hv => hc v hv (h.setReg hw v)

theorem jumpToReg {a : Byte} (ha : a ∈ regOperands i) : Ensures (s.jumpToReg a) (HandlerFrame i s₀) :=
  h.readReg ha fun _ _ => ensures_next.2 (h.setPc _)

theorem fallThrough (hi : AddsAddress i) : Ensures s.fallThrough (HandlerFrame i s₀) :=
  h.withWrapadd hi s.pc 2 fun v _ => ensures_next.2 (h.setPc v)

theorem readRegs {a b : Byte} (ha : a ∈ regOperands i) (hb : b ∈ regOperands i) {cont : Byte → Byte → Result}
    (hc : ∀ r, regIndex a = some r → ∀ w, Ensures (cont (s.reg r) w) (HandlerFrame i s₀)) :
    Ensures (s.readRegs a b cont) (HandlerFrame i s₀) :=
  h.readReg ha fun r hr => h.readReg hb fun _ _ => hc r hr _

theorem aluBinary {a b : Byte} (ha : a ∈ regOperands i) (hb : b ∈ regOperands i)
    (hw : ∀ r : Fin 8, a.toNat = r.val → WritesReg i r) (f : Byte → Byte → Byte) :
    Ensures (s.aluBinary f a b) (HandlerFrame i s₀) :=
  h.readRegs ha hb fun _ _ _ => h.writeReg ha hw _ fun _ hu => ensures_next.2 hu

end

end HandlerFrame

/-- Every handler stays inside its frame, whether it stops or not. -/
theorem exec_frame (i : Instr) (s : State) : Ensures (exec i s) (HandlerFrame i s) := by
  have hs : HandlerFrame i s s := .refl i s
  cases i with
  | add a b | mul a b | and a b | or a b | xor a b =>
    exact hs.aluBinary (.head _) (.tail _ (.head _)) (fun _ hr => hr) _
  | cmp a b =>
    rw [exec_cmp]
    exact hs.readRegs (.head _) (.tail _ (.head _)) fun _ _ _ => ensures_next.2 (hs.setFl _)
  | jmp a => exact hs.jumpToReg (.head _)
  | jeq a =>
    simp only [exec, execJeq]
    split
    · exact hs.jumpToReg (.head _)
    · exact hs.fallThrough trivial
  | jne a =>
    simp only [exec, execJne]
    split
    · exact hs.fallThrough trivial
    · exact hs.jumpToReg (.head _)
  | call a =>
    rw [exec_call]
    refine hs.withWrapadd trivial _ _ fun ret _ => hs.moveSp trivial rfl _ fun sp hsp hu => ?_
    rw [s.storeAtSp_setReg_sp]
    exact (hu.memWrite hsp ret).jumpToReg (.head _)
  | ret =>
    rw [exec_ret]
    exact hs.moveSp trivial rfl _ fun _ _ hu => ensures_next.2 (hu.setPc _)
  | ldi a b => exact hs.writeReg (.head _) (fun _ hr => hr) b fun _ hu => ensures_next.2 hu
  | st a b =>
    rw [exec_st]
    exact hs.readRegs (.head _) (.tail _ (.head _)) fun _ hr _ =>
      ensures_next.2 (hs.memWrite (congrArg (Option.map s.reg) hr) _)
  | push a =>
    rw [exec_push]
    refine hs.moveSp trivial rfl _ fun sp hsp hu => hu.readReg (.head _) fun _ _ => ensures_next.2 ?_
    rw [s.storeAtSp_setReg_sp]
    exact hu.memWrite hsp _
  | pop a =>
    exact hs.writeReg (.head _) (fun _ => .inl) _ fun _ hu =>
      hu.moveSp trivial (.inr rfl) _ fun _ _ hv => ensures_next.2 hv
  | prn a =>
    rw [exec_prn]
    exact hs.readReg (.head _) fun _ _ => ensures_next.2 (hs.emit rfl _)
  | hlt => exact ensures_next.2 (hs.setRun (.inl ⟨rfl, rfl⟩))

/-! ## What the rest of a step may change -/

/-- `t` differs from `s` only in what a step may change outside the handler: pc, by the advance, and `run`, by a stop in
the fetch, in the decoder or in the advance. -/
structure SequencerFrame (s t : State) : Prop where
  fl : t.fl = s.fl
  mem : t.mem = s.mem
  out : t.out = s.out
  wrapPolicy : t.wrapPolicy = s.wrapPolicy
  run : t.run = s.run ∨ (∃ op adr, t.run = .decodeError op adr) ∨
    (s.wrapPolicy = .fault ∧ t.run = .guestUB .addressOutOfRange)

theorem SequencerFrame.refl (s : State) : SequencerFrame s s := ⟨rfl, rfl, rfl, rfl, .inl rfl⟩

theorem State.advance_frame (s : State) (op : Byte) : Ensures (s.advance op) (SequencerFrame s) := by
  rcases s.advance_cases op with ⟨-, -, e⟩ | ⟨-, -, hp, e⟩ | ⟨-, e⟩ <;> rw [e]
  · exact ensures_next.2 ⟨rfl, rfl, rfl, rfl, .inl rfl⟩
  · exact ensures_next.2 ⟨rfl, rfl, rfl, rfl, .inr (.inr ⟨hp, rfl⟩)⟩
  · exact ensures_next.2 (.refl s)

/-- A step stays inside the sequencer's frame of its start, or inside that of what its instruction's handler answers. -/
theorem step_frame_cases {s t : State} (h : step s = .next t) :
    SequencerFrame s t ∨
      ∃ l i u, s.fetch? = some l ∧ decode l = .instr i ∧ exec i s = .next u ∧ SequencerFrame u t := by
  rcases step_cases s with ⟨-, e⟩ | ⟨-, hf, e⟩ | ⟨l, -, -, -, e⟩ | ⟨l, i, u, -, hf, hd, hu, e⟩ <;> rw [e] at h
  · obtain rfl := Host.Outcome.next.inj h
    exact .inl (.refl s)
  · obtain rfl := Host.Outcome.next.inj h
    exact .inl ⟨rfl, rfl, rfl, rfl, .inr (.inr ⟨State.fetch?_eq_none hf, rfl⟩)⟩
  · obtain rfl := Host.Outcome.next.inj h
    exact .inl ⟨rfl, rfl, rfl, rfl, .inr (.inl ⟨_, _, rfl⟩)⟩
  · exact .inr ⟨l, i, u, hf, hd, hu, u.advance_frame l.op t h⟩

/-! ## What holds of every step -/

/-- Settles O12: each of the four ways a step can go ends in a next state. -/
theorem everyStepAnswersANextState : Obligations.EveryStepAnswersANextState := by
  intro s
  rcases step_cases s with ⟨-, e⟩ | ⟨-, -, e⟩ | ⟨_, -, -, -, e⟩ | ⟨l, _, u, -, -, -, -, e⟩
  · exact ⟨_, e⟩
  · exact ⟨_, e⟩
  · exact ⟨_, e⟩
  · exact e ▸ u.advance_next l.op

/-- Settles O16: neither the handler nor the sequencer changes the policy. -/
theorem stepKeepsTheWrapPolicy : Obligations.StepKeepsTheWrapPolicy := by
  intro s t h
  rcases step_frame_cases h with hseq | ⟨_, i, u, -, -, hu, hseq⟩
  · exact hseq.wrapPolicy
  · exact hseq.wrapPolicy.trans (exec_frame i s u hu).wrapPolicy

/-- Settles O18: the sequencer leaves FL alone, and so does every handler but CMP's. -/
theorem flagsChangeOnlyByCmp : Obligations.FlagsChangeOnlyByCmp := by
  intro s t h
  rcases step_frame_cases h with hseq | ⟨l, i, u, hf, hd, hu, hseq⟩
  · exact .inr hseq.fl
  · by_cases hi : ∃ a b, i = .cmp a b
    · obtain ⟨a, b, rfl⟩ := hi
      exact .inl ⟨l, a, b, hf, hd⟩
    · have hi' (a b : Byte) : i ≠ .cmp a b := fun e => hi ⟨a, b, e⟩
      exact .inr (hseq.fl.trans (exec_keeps_fl s hi' u hu))

/-- PRN appends the byte of its register, or stops with nothing emitted. -/
theorem exec_prn_out {s t : State} {a : Byte} (h : exec (.prn a) s = .next t) :
    (∃ ha : a.toNat < 8, t.out = s.out ++ [s.reg ⟨a.toNat, ha⟩]) ∨ t.out = s.out := by
  rw [exec_prn] at h
  rcases s.readReg_cases a fun v => .next (s.emit v) with ⟨ha, e⟩ | ⟨-, e⟩ <;>
    obtain rfl := Host.Outcome.next.inj (e.symm.trans h)
  · exact .inl ⟨ha, rfl⟩
  · exact .inr rfl

/-- Settles O19: the sequencer leaves the output alone, and so does every handler but PRN's. -/
theorem outputGrowsOnlyByPrn : Obligations.OutputGrowsOnlyByPrn := by
  intro s t h
  rcases step_frame_cases h with hseq | ⟨l, i, u, hf, hd, hu, hseq⟩
  · exact .inr hseq.out
  · rw [hseq.out]
    by_cases hi : ∃ a, i = .prn a
    · obtain ⟨a, rfl⟩ := hi
      exact (exec_prn_out hu).imp_left fun ⟨ha, ho⟩ => ⟨l, a, ha, hf, hd, ho⟩
    · exact .inr ((exec_frame i s u hu).out fun a e => hi ⟨a, e⟩)

/-- An instruction is well formed exactly when all of its register operands name registers (10_state.md R24). -/
theorem wellFormed_iff_regOperands (i : Instr) : i.WellFormed ↔ ∀ a ∈ regOperands i, a.toNat < 8 := by
  cases i <;> simp [Instr.WellFormed, regOperands]

/-- Settles O22: of the three stops, one is HLT's, one needs a bad operand and one the other policy. -/
theorem validInstructionsNeverStopUnderWrap : Obligations.ValidInstructionsNeverStopUnderWrap := by
  intro i s t hwf hne hp ht
  rcases (exec_frame i s t ht).run with hrun | ⟨rfl, -⟩ | ⟨⟨a, ha, hge⟩, -⟩ | ⟨-, hfault, -⟩
  · exact hrun
  · exact absurd rfl hne
  · exact absurd ((wellFormed_iff_regOperands i).1 hwf a ha) (Nat.not_lt.2 hge)
  · rw [hp] at hfault; cases hfault

/-! ## The invariant (10_state.md R28, R29, 60_exceptions.md R183) -/

theorem compareFlags_legal (va vb : Byte) : LegalFl (compareFlags va vb) := by
  rcases compareFlags_cases va vb with ⟨-, e⟩ | ⟨-, e⟩ | ⟨-, e⟩
  · exact .inr (.inl e)
  · exact .inr (.inr (.inl e))
  · exact .inr (.inr (.inr e))

/-- Every handler keeps FL legal: CMP writes a comparison's byte, and no other instruction writes FL. -/
theorem exec_keeps_legalFl {i : Instr} {s t : State} (hs : LegalFl s.fl) (h : exec i s = .next t) : LegalFl t.fl := by
  by_cases hi : ∃ a b, i = .cmp a b
  · obtain ⟨a, b, rfl⟩ := hi
    rcases exec_cmp_cases s a b with ⟨ha, hb, e⟩ | ⟨-, e⟩ <;> obtain rfl := Host.Outcome.next.inj (e.symm.trans h)
    · exact compareFlags_legal _ _
    · exact hs
  · rw [exec_keeps_fl s (fun a b e => hi ⟨a, b, e⟩) t h]
    exact hs

theorem exec_keeps_inv {i : Instr} {s t : State} (hs : s.Inv) (h : exec i s = .next t) : t.Inv := by
  obtain ⟨hmem, hfl, hrun⟩ := hs
  have hframe := exec_frame i s t h
  refine ⟨hframe.canonical hmem, exec_keeps_legalFl hfl h, fun hp => ?_⟩
  rw [hframe.wrapPolicy] at hp
  rcases hframe.run with e | ⟨-, e⟩ | ⟨-, e⟩ | ⟨-, hfault, -⟩
  · rw [e]; exact hrun hp
  · rw [e]; nofun
  · rw [e]; nofun
  · rw [hp] at hfault; cases hfault

theorem SequencerFrame.inv {s t : State} (h : SequencerFrame s t) (hs : s.Inv) : t.Inv := by
  obtain ⟨hmem, hfl, hrun⟩ := hs
  refine ⟨h.mem ▸ hmem, h.fl ▸ hfl, fun hp => ?_⟩
  rw [h.wrapPolicy] at hp
  rcases h.run with e | ⟨_, _, e⟩ | ⟨hfault, -⟩
  · rw [e]; exact hrun hp
  · rw [e]; nofun
  · rw [hp] at hfault; cases hfault

/-- Settles O13: the handler keeps the invariant by `exec_keeps_inv`, and the sequencer by its frame. -/
theorem stepKeepsTheInvariant : Obligations.StepKeepsTheInvariant := by
  intro s t hs h
  rcases step_frame_cases h with hseq | ⟨_, _, _, -, -, hu, hseq⟩
  · exact hseq.inv hs
  · exact hseq.inv (exec_keeps_inv hs hu)

/-- Settles O14: at reset the memory lists nothing, FL is 0 and the core is running. -/
theorem resetMeetsTheInvariant : Obligations.ResetMeetsTheInvariant :=
  ⟨State.reset_mem_wf, .inl rfl, nofun⟩

/-- What every step keeps, any number of steps keeps. -/
theorem core_run_keeps {P : State → Prop} (hstep : ∀ s t, P s → step s = .next t → P t) (k : Nat) {s t : State}
    (hs : P s) (h : Host.Core.run Sys2Proof.core k s = .next t) : P t := by
  induction k generalizing s with
  | zero => exact Host.Outcome.next.inj h ▸ hs
  | succ k ih =>
    obtain ⟨u, hu⟩ := everyStepAnswersANextState s
    have hcore : Sys2Proof.core.step s = .next u := hu
    simp only [Host.Core.run, hcore] at h
    exact ih (hstep s u hs hu) h

/-- Settles O15: the step lemma O13, over any number of steps. -/
theorem runKeepsTheInvariant : Obligations.RunKeepsTheInvariant :=
  fun k _ _ hs h => core_run_keeps stepKeepsTheInvariant k hs h

/-! ## The frames (42_control.md, 43_data.md) -/

section
variable {i : Instr} {s t : State} (h : HandlerFrame i s t) (hne : i ≠ .hlt)
include h hne

/-- But for HLT, the handler leaves `run` alone or records a misuse. -/
theorem HandlerFrame.run_or_guestUB : t.run = s.run ∨ ∃ kind, t.run = .guestUB kind := by
  rcases h.run with e | ⟨hi, -⟩ | ⟨-, e⟩ | ⟨-, -, e⟩
  · exact .inl e
  · exact absurd hi hne
  · exact .inr ⟨_, e⟩
  · exact .inr ⟨_, e⟩

/-- Where it adds no address either, the misuse is a bad index. -/
theorem HandlerFrame.run_or_badIndex (hadd : ¬AddsAddress i) : t.run = s.run ∨ t.run = .guestUB .badRegisterIndex := by
  rcases h.run with e | ⟨hi, -⟩ | ⟨-, e⟩ | ⟨hi, -⟩
  · exact .inl e
  · exact absurd hi hne
  · exact .inr e
  · exact absurd hi hadd

/-- Where it has no register operand, the misuse is an address out of range. -/
theorem HandlerFrame.run_or_outOfRange (hop : regOperands i = []) :
    t.run = s.run ∨ t.run = .guestUB .addressOutOfRange := by
  rcases h.run with e | ⟨hi, -⟩ | ⟨⟨a, ha, -⟩, -⟩ | ⟨-, -, e⟩
  · exact .inl e
  · exact absurd hi hne
  · rw [hop] at ha; cases ha
  · exact .inr e

end

/-- Settles O45: each clause is the handler's frame, in which LDI adds no address and RET has no operand. -/
theorem frameOfRegisterLoads : Obligations.FrameOfRegisterLoads := by
  refine fun a b s t => ⟨fun ht => ?_, fun ht => ?_, fun ht => ?_⟩
  all_goals
    have hf := exec_frame _ s t ht
    have hfl : t.fl = s.fl := exec_keeps_fl s (by simp) t ht
  · exact ⟨fun q hq => hf.reg q (Ne.symm hq), exec_keeps_pc s rfl t ht, hfl, hf.out nofun, hf.wrapPolicy,
      hf.run_or_badIndex nofun id, fun adr => hf.memRead adr nofun⟩
  · exact ⟨fun q hq hsp => hf.reg q (not_or.2 ⟨Ne.symm hq, hsp⟩), exec_keeps_pc s rfl t ht, hfl, hf.out nofun,
      hf.wrapPolicy, hf.run_or_guestUB nofun, fun adr => hf.memRead adr nofun⟩
  · exact ⟨hf.reg, hfl, hf.out nofun, hf.wrapPolicy, hf.run_or_outOfRange nofun rfl, fun adr => hf.memRead adr nofun⟩

/-- Settles O46: none of the five writes a register, FL or memory, and PRN and HLT do not set pc. -/
theorem frameOfJumpsOutputAndHalt : Obligations.FrameOfJumpsOutputAndHalt := by
  intro a s t i hi ht
  have hf := exec_frame i s t ht
  obtain ⟨hreg, hstore, hcmp, hprn⟩ : (∀ q, ¬WritesReg i q) ∧ storeAddress i s = none ∧ (∀ b c, i ≠ .cmp b c) ∧
      (i ≠ .prn a → ∀ b, i ≠ .prn b) := by
    simp only [List.mem_cons, List.not_mem_nil, or_false] at hi
    rcases hi with rfl | rfl | rfl | rfl | rfl <;> simp [WritesReg, storeAddress]
  refine ⟨fun q => hf.reg q (hreg q), exec_keeps_fl s hcmp t ht, hf.wrapPolicy, fun adr => hf.memRead adr ?_,
    fun hne => hf.out (hprn hne), fun hpc => exec_keeps_pc s ?_ t ht, hf.run_or_guestUB⟩
  · rw [hstore]; nofun
  · rcases hpc with rfl | rfl <;> rfl

/-- Settles O47: the address the handler's frame excepts is `storeAddress`, which is the statement's own. -/
theorem frameOfStores : Obligations.FrameOfStores := by
  refine fun a b s t => ⟨fun ht => ?_, fun i hi ht => ?_⟩
  · have hf := exec_frame _ s t ht
    exact ⟨fun q => hf.reg q id, exec_keeps_pc s rfl t ht, exec_keeps_fl s (by simp) t ht, hf.out nofun, hf.wrapPolicy,
      hf.run_or_badIndex nofun id, hf.memRead⟩
  · have hf := exec_frame i s t ht
    simp only [List.mem_cons, List.not_mem_nil, or_false] at hi
    rcases hi with rfl | rfl
    · exact ⟨hf.reg, exec_keeps_fl s (by simp) t ht, hf.out nofun, hf.wrapPolicy, hf.run_or_guestUB nofun,
        fun _ => exec_keeps_pc s rfl t ht, hf.memRead⟩
    · exact ⟨hf.reg, exec_keeps_fl s (by simp) t ht, hf.out nofun, hf.wrapPolicy, hf.run_or_guestUB nofun, nofun,
        hf.memRead⟩

end Sys2Proof.Machine

/-! PROOFS. The canonical memory (20_memory.md section 1, log 5). -/

namespace Sys2Proof.Machine

theorem Memory.mem_of_read {m : Memory} {a v : Byte} (h : Memory.read m a = v) (hv : v ≠ Memory.unlisted) :
    (a.toNat, v) ∈ m := by
  induction m with
  | nil => exact absurd h.symm hv
  | cons c rest ih =>
    unfold Memory.read at h
    split at h
    · next hc => rw [← hc, ← h]; exact List.mem_cons_self
    · exact List.mem_cons_of_mem _ (ih h)

/-- In a list with rising addresses an entry is what its address reads as, since no entry before it has that address. -/
theorem Memory.read_of_mem {m : Memory} (hm : m.Pairwise fun c d => c.1 < d.1) {a v : Byte}
    (h : (a.toNat, v) ∈ m) : Memory.read m a = v := by
  induction m with
  | nil => cases h
  | cons c rest ih =>
    obtain ⟨hc, hrest⟩ := List.pairwise_cons.1 hm
    unfold Memory.read
    rcases List.mem_cons.1 h with rfl | hr
    · exact if_pos rfl
    · rw [if_neg (hc _ hr).ne]
      exact ih hrest hr

/-- What a canonical memory lists: the bytes that differ from the fill, each at the address that reads as it. -/
theorem Memory.mem_iff_read {m : Memory} (hm : Memory.wf m) (c : Host.Cell) :
    c ∈ m ↔ ∃ a : Byte, c.1 = a.toNat ∧ Memory.read m a = c.2 ∧ c.2 ≠ Memory.unlisted := by
  obtain ⟨hp, hc⟩ := hm
  constructor
  · intro h
    obtain ⟨hlt, hne⟩ := hc c h
    have ha : c.1 = (BitVec.ofNat 8 c.1).toNat := (Nat.mod_eq_of_lt hlt).symm
    exact ⟨BitVec.ofNat 8 c.1, ha, Memory.read_of_mem hp (ha ▸ h), hne⟩
  · rintro ⟨a, ha, hr, hne⟩
    have hmem := Memory.mem_of_read hr hne
    rwa [← ha] at hmem

/-- Settles O24: both list the same entries, and a list in rising order is determined by its entries. -/
theorem canonicalMemoriesThatReadAlikeAreEqual : Obligations.CanonicalMemoriesThatReadAlikeAreEqual := by
  intro m n hm hn h
  have hentries (c : Host.Cell) : c ∈ m ↔ c ∈ n := by simp only [Memory.mem_iff_read hm, Memory.mem_iff_read hn, h]
  have hanti : Std.Antisymm fun c d : Host.Cell => c.1 < d.1 := ⟨fun _ _ hcd hdc => absurd hcd hdc.not_gt⟩
  have hirrefl : Std.Irrefl fun c d : Host.Cell => c.1 < d.1 := ⟨fun _ => lt_irrefl _⟩
  exact List.Pairwise.eq_of_mem_iff hm.1 hn.1 hentries

end Sys2Proof.Machine

/-! PROOFS. LDI to each of the registers (10_state.md R21), and the laws over two instructions and over a run
(42_control.md section 2, 43_data.md section 2, 20_memory.md section 5, 70_reset_and_hazards.md sections 1 and 2). -/

namespace Sys2Proof.Machine

/-- Settles O21: LDI is the register write, for any index below 8. -/
theorem noRegisterIsHardwired : Obligations.NoRegisterIsHardwired := by
  intro s a v ha
  refine ⟨_, s.writeReg_of_lt ha v .next, s.setReg_reg_self _ v, fun q hq => s.setReg_reg_of_ne ?_ v⟩
  exact fun e => hq (congrArg Fin.val e).symm

/-- Settles O34: the jump writes pc with what it holds, and the advance keeps it, as JMP sets bit 4. -/
theorem jmpToItselfLoopsForever : Obligations.JmpToItselfLoopsForever := by
  intro s l a ha k hr hf hd hself
  have hc : opPcSet l.op = true := congrArg Prod.snd (fieldBits_of_decode hd)
  have hexec : exec (.jmp a) s = .next s := by
    calc exec (.jmp a) s = .next (s.setPc (s.reg ⟨a.toNat, ha⟩)) := s.jumpToReg_of_lt ha
      _ = .next s := by rw [hself]; rfl
  refine core_run_of_step_eq ?_ k
  calc step s = s.advance l.op := by rw [step_of_running hr hf hd, hexec]; rfl
    _ = .next s := State.advance_of_kept (.inr hc)

/-- Settles O51: the start is running, and every later state is the halted one. -/
theorem haltingRunIsSafe : Obligations.HaltingRunIsSafe := by
  intro s l hr hf hd k t ht
  obtain ⟨-, hhlt, -⟩ := hltResult
  obtain ⟨hstep, hhalted⟩ := hhlt s l hr hf hd
  cases k with
  | zero =>
    obtain rfl := Host.Outcome.next.inj ht
    simp [State.EndedAtFault, hr]
  | succ k =>
    have hcore : Sys2Proof.core.step s = .next { s with run := .haltedOk } := hstep
    simp only [Host.Core.run, hcore] at ht
    obtain rfl := Host.Outcome.next.inj ((hhalted k).symm.trans ht)
    rfl

/-- Settles O48: the pushed cell holds the address after the CALL, and raising SP undoes the push's move. -/
theorem callThenRetResumesAfterTheCall : Obligations.CallThenRetResumesAfterTheCall := by
  intro s t u a ha hok ht hsp hmem hpol
  have hpush : s.wrapPolicy = .wrap ∨ (s.pc.toNat ≤ 253 ∧ s.sp ≠ 0#8) :=
    hok.imp_right fun ⟨hlow, hpc⟩ => ⟨hpc, by bv_omega⟩
  have hcall := (exec_call_of_ok s a hpush).trans (State.jumpToReg_of_lt _ ha)
  obtain rfl := Host.Outcome.next.inj (hcall.symm.trans ht)
  simp only [State.setPc_sp, State.memWrite_sp, State.setReg_sp, State.setPc_memRead, State.memWrite_memRead_same,
    State.setPc_wrapPolicy, State.memWrite_wrapPolicy, State.setReg_wrapPolicy] at hsp hmem hpol
  have hpop : u.wrapPolicy = .wrap ∨ u.sp ≠ 255#8 := by
    rw [hpol, hsp]
    exact hok.imp_right fun ⟨hlow, _⟩ => by bv_omega
  refine ⟨_, (exec_ret u).trans (u.moveSp_up_of_ok _ hpop), ?_, ?_⟩
  · simp [State.stackTop, hsp, hmem]
  · simp [hsp]

/-- Settles O49: POP loads the pushed byte and raises SP. For R7 that byte is the lowered SP, which the load leaves as
it was, so raising it gives the old SP there too. -/
theorem pushThenPopRestores : Obligations.PushThenPopRestores := by
  rintro s t u a ha hp ht hsp - hmem hpol
  have hpush := (exec_push_of_ok s a (.inl hp)).trans (State.readReg_of_lt _ ha _)
  obtain rfl := Host.Outcome.next.inj (hpush.symm.trans ht)
  simp only [State.memWrite_sp, State.setReg_sp, State.memWrite_memRead_same, State.memWrite_wrapPolicy,
    State.setReg_wrapPolicy] at hsp hmem hpol
  refine ⟨_, (exec_pop_of_lt u ha).trans (State.moveSp_up_of_ok _ _ (.inl (hpol.trans hp))), ?_⟩
  rw [hsp, hmem]
  by_cases h7 : spIndex = ⟨a.toNat, ha⟩
  · simp [← h7, State.sp]
  · simp [State.setReg_reg_of_ne _ h7, State.sp_setReg_of_ne (Ne.symm h7), hsp]

/-- Settles O50: ST's length is three, and the store is in the memory that the next fetch reads. -/
theorem nextFetchSeesTheStore : Obligations.NextFetchSeesTheStore := by
  intro s l a b ha hb hr hp hf hd
  obtain ⟨rest, he⟩ := encode_of_decode_cons hd
  have hlen : 3 = 1 + (l.op >>> 6).toNat := (encode_length_of_cons he).1
  have hc : l.op.getLsbD 4 = false := congrArg Prod.snd (fieldBits_of_decode hd)
  obtain ⟨-, hadvance⟩ := stepRunsTheDecodedInstruction s _ l _ hr hf hd (exec_st_of_lt s ha hb)
  obtain ⟨hmove, -⟩ := hadvance hr hc
  refine ⟨_, hmove (.inl hp), ?_, fun adr => ?_, State.fetch?_of_ok (.inl hp)⟩
  · rw [← hlen, byte_ofNat_mod]; rfl
  · exact s.memWrite_memRead _ _ adr

end Sys2Proof.Machine

/-! PROOFS. Reset, load and the first fetch (10_state.md section 8, 20_memory.md section 4, 70_reset_and_hazards.md
section 1). -/

namespace Sys2Proof.Machine

/-! ## Power-on (10_state.md R37) -/

/-- Settles O52: the registers are the seven given and then SP, and the memory holds the fill. -/
theorem powerOnSetsEveryPieceOfState : Obligations.PowerOnSetsEveryPieceOfState := by
  refine fun c => ⟨?_, fun r => ?_, rfl, rfl, Memory.ofCells_read c.resetMemFill, rfl, rfl⟩
  · simp [State.reg, State.powerOn]
  · simp [State.reg, State.powerOn]

/-- A memory that holds the fill everywhere lists nothing. -/
theorem Memory.ofCells_unlisted : Memory.ofCells (Vector.replicate 256 Memory.unlisted) = [] := by
  simp [Memory.ofCells]

/-- Settles O53: the reference fill lists nothing, and every other field is the same literal. -/
theorem resetIsPowerOnAtTheReferenceValues : Obligations.ResetIsPowerOnAtTheReferenceValues := by
  have hmem : Memory.ofCells Config.reference.resetMemFill = [] := Memory.ofCells_unlisted
  simp only [Obligations.ResetIsPowerOnAtTheReferenceValues, State.powerOn, hmem]
  rfl

/-! ## The load (20_memory.md R59) -/

/-- After the load the cell `k` past `addr` holds image byte `k`, and the cells past the image's end are as they were.
The image does not go round the address space, so its later bytes leave the cell at `addr` alone. -/
theorem State.loadFrom_memRead (s : State) (addr : Byte) {image : List Byte} (hlen : image.length ≤ 256) {k : Nat}
    (hk : k < 256) : (s.loadFrom addr image).memRead (addr + BitVec.ofNat 8 k) =
      image[k]?.getD (s.memRead (addr + BitVec.ofNat 8 k)) := by
  induction image generalizing s addr k with
  | nil => rfl
  | cons v rest ih =>
    have hrest : rest.length ≤ 255 := Nat.le_of_succ_le_succ hlen
    rw [State.loadFrom]
    cases k with
    | zero =>
      have hround : addr + BitVec.ofNat 8 0 = addr + 1#8 + BitVec.ofNat 8 255 := by bv_omega
      rw [hround, ih _ _ (by omega) (by decide), List.getElem?_eq_none hrest, ← hround]
      simp [State.load]
    | succ k =>
      have hnext : addr + BitVec.ofNat 8 (k + 1) = addr + 1#8 + BitVec.ofNat 8 k := by
        rw [Nat.add_comm, BitVec.ofNat_add, BitVec.add_assoc]
      have hne : addr + 1#8 + BitVec.ofNat 8 k ≠ addr := by bv_omega
      rw [hnext, ih _ _ (by omega) (by omega), State.load, s.memWrite_memRead_of_ne hne, List.getElem?_cons_succ]

/-- The load changes memory and nothing else. -/
theorem State.loadFrom_eq (s : State) (addr : Byte) (image : List Byte) :
    s.loadFrom addr image = { s with mem := (s.loadFrom addr image).mem } := by
  induction image generalizing s addr with
  | nil => rfl
  | cons v rest ih => rw [State.loadFrom, ih]; rfl

theorem boot_of_length_le (c : Config) {image : List Byte} (h : image.length ≤ 256) :
    boot c image = .next ((State.powerOn c).loadFrom 0x00#8 image) := if_pos h

theorem boot_of_length_gt (c : Config) {image : List Byte} (h : 256 < image.length) :
    boot c image = .refused (.imageTooLong image.length) := if_neg (Nat.not_le.2 h)

/-- Settles O54: the load is from address 0, and the cells past the image keep the fill of the power-on. -/
theorem loadPutsTheImageAtZero : Obligations.LoadPutsTheImageAtZero := by
  refine fun c image => ⟨fun hlen => ⟨_, boot_of_length_le c hlen, fun k hk => ?_, ?_⟩, boot_of_length_gt c⟩
  · have hfill : (State.powerOn c).memRead (BitVec.ofNat 8 k) = c.resetMemFill[k] :=
      Memory.ofCells_read c.resetMemFill ⟨k, hk⟩
    have hread := (State.powerOn c).loadFrom_memRead 0#8 hlen hk
    rw [BitVec.zero_add, hfill] at hread
    rw [hread]
    split
    · next hin => rw [List.getElem?_eq_getElem hin]; rfl
    · next hout => rw [List.getElem?_eq_none (Nat.not_lt.1 hout)]; rfl
  · rw [State.loadFrom_eq]
    exact ⟨rfl, rfl, rfl, rfl, rfl, rfl⟩

/-! ## The first step (70_reset_and_hazards.md R200) -/

theorem encode_length_le_three (i : Instr) : (encode i).length ≤ 3 := by
  rcases encode_cases i with ⟨_, e, -⟩ | ⟨_, _, e, -⟩ | ⟨_, _, _, e, -⟩ <;> simp [e]

/-- Settles O55: the three bytes fetched at 0 begin with the instruction's, so they decode to it. -/
theorem firstFetchReadsTheImage : Obligations.FirstFetchReadsTheImage := by
  intro c i rest s hpc hlen hboot
  obtain ⟨s', hboot', hread, -, hspc, -, hrun, -, -⟩ := (loadPutsTheImageAtZero c (encode i ++ rest)).1 hlen
  obtain rfl := Host.Outcome.next.inj (hboot'.symm.trans hboot)
  have hpc0 : s'.pc = 0#8 := hspc.trans hpc
  have hf : s'.fetch? = some ⟨s'.memRead 0#8, s'.memRead 1#8, s'.memRead 2#8⟩ := by
    rw [State.fetch?_of_ok (.inr (by rw [hpc0]; decide)), hpc0]
    rfl
  have hbyte (k : Nat) (hk : k < (encode i).length) : s'.memRead (BitVec.ofNat 8 k) = (encode i)[k] := by
    have hk' : k < (encode i ++ rest).length := by rw [List.length_append]; omega
    rw [hread k (by omega), dif_pos hk', List.getElem_append_left hk]
  have hbytes : encode i <+: [s'.memRead 0#8, s'.memRead 1#8, s'.memRead 2#8] := by
    refine List.prefix_iff_getElem?.2 fun k hk => ?_
    rw [← hbyte k hk]
    match k, hk.trans_le (encode_length_le_three i) with
    | 0, _ | 1, _ | 2, _ => rfl
  have hd : decode ⟨s'.memRead 0#8, s'.memRead 1#8, s'.memRead 2#8⟩ = .instr i :=
    decodeOfEncodeIsTheInstruction i _ hbytes
  exact ⟨_, hf, hd, step_of_running hrun hf hd⟩

end Sys2Proof.Machine
